-- ==== Sys2Proof/Word.lean ====
section
/-!
DEFINITION. The two units the block moves: a byte (R11) and a 64-byte packet (R8, R27, R43).
-/

namespace Sys2Proof

/-- R11: a byte is an 8-bit unsigned value; bit 0 is its least significant bit. -/
abbrev Byte := BitVec 8

/-- R27, R43: a packet is exactly 64 bytes, `p[0]` to `p[63]`. The length is part of the value, so
a packet of another size (I22: "stuck", the model has no step for it) cannot be written down. -/
structure Packet where
  /-- the bytes `p[0]`, `p[1]`, … in order -/
  bytes : List Byte
  /-- R8 PKT_SIZE, R47(c): "The block never emits or accepts any other size." -/
  length_eq : bytes.length = 64
  deriving DecidableEq, Repr

end Sys2Proof
end

