-- ==== Sys2Proof/Config.lean ====
section
/-!
DEFINITION. What the spec leaves to the implementation or to the environment (R9): the build
parameters with this spec's values, and the draws, which are free values (constants without a body).
-/

namespace Sys2Proof

/-- R27, R66, R151: the timeout class of one receive attempt. -/
inductive TimeoutClass where
  /-- SHORT: RECV.S and READ 0 -/
  | short
  /-- LONG: RECV.L and READ n for n > 0 -/
  | long
  deriving DecidableEq, Repr, Inhabited

/-- R27: what the transport answers to one receive attempt. -/
inductive Answer where
  /-- TIMEOUT: "observed as "no data" rather than an error" -/
  | timeout
  /-- PACKET(p), with |p| = 64 by the type of `p` -/
  | packet (p : Packet)
  deriving DecidableEq, Repr, Inhabited

/-- R9, R123: READ_TIMEOUT_POLICY. -/
inductive ReadTimeoutPolicy where
  /-- RETURN_SHORT, this spec's value -/
  | returnShort
  /-- BLOCK: READ retries without end -/
  | block
  deriving DecidableEq, Repr

/-- R9: the build parameters a rule reads. A machine is built with one value of each, and no
operation reads them out or writes them (R24). -/
structure BuildParams where
  /-- STRICT_PARITY (R85) -/
  strictParity : Bool
  /-- READ_TIMEOUT_POLICY (R123) -/
  readTimeoutPolicy : ReadTimeoutPolicy
  deriving DecidableEq, Repr

/-- R9: this spec's values, STRICT_PARITY = false (D7) and READ_TIMEOUT_POLICY = RETURN_SHORT (D15). -/
def BuildParams.spec : BuildParams :=
  { strictParity := false, readTimeoutPolicy := .returnShort }

/-- R9, R25: RXBUF_CAP is unbounded (D20); `none` says that there is no bound. The receive buffer is
a list, which has no largest length. -/
def Config.rxbufCap : Option Nat := none

/-- R115, R13 `Draw()`: the padding draw. FREE VALUE (log entry 1): nothing constrains a byte of it.
The argument is the number of draws made before this one, so two draws need not agree. -/
opaque Config.padDraw : Nat → Byte

/-- R27, R151: the PKT_IN oracle, asked once per receive attempt with the attempt's number and its
timeout class. FREE VALUE (log entry 2): nothing constrains an answer. -/
opaque Config.pktInDraw : Nat → TimeoutClass → Answer

/-- R9, R151: T_SHORT, an OPEN duration in no stated unit. FREE VALUE (log entry 3); no rule reads it. -/
opaque Config.tShort : Nat

/-- R151: by how much T_LONG exceeds T_SHORT, less one. FREE VALUE (log entry 3). -/
opaque Config.tLongExcess : Nat

/-- R151: the duration a timeout class stands for. The one constraint, T_SHORT < T_LONG ("a longer
timeout"), holds by construction. -/
def TimeoutClass.duration : TimeoutClass → Nat
  | .short => Config.tShort
  | .long => Config.tShort + Config.tLongExcess + 1

end Sys2Proof
end

