-- ==== Sys2Proof/Syntax.lean ====
section
/-!
DEFINITION. What the host presents on the command port (R28), and the instructions: one constructor
of `Instr` for each row of spec/opcode_table.json.
-/

namespace Sys2Proof

/-- R28: one command `(op, data, n)`, delivered whole. -/
structure Command where
  /-- the operation word (R60) -/
  op : Byte
  /-- the operand bytes, of any length -/
  data : List Byte
  /-- a natural number, read by READ only (R76) -/
  n : Nat
  deriving DecidableEq, Repr

/-- What the host can do to the block: issue a command (R28) or drive the reset input (R160, R161:
"A model has RESET as a step of the host agent"). -/
inductive HostInput where
  | command (c : Command)
  | reset
  deriving DecidableEq, Repr

/-- The instructions. An instruction carries the operands of its command as they come, the illegal
ones too: R61 raises BAD_TRACK and BAD_OPERAND for commands whose op word is assigned, so those are
faults of the instruction, and the decoder rejects an op word only (R61: "every byte value either
selects exactly one operation or raises BAD_OPCODE"). -/
inductive Instr where
  /-- UNPACK t (R80): `tt` is the op word's track field -/
  | unpack (tt : BitVec 2) (data : List Byte)
  /-- PACK t (R86) -/
  | pack (tt : BitVec 2) (data : List Byte)
  /-- HDRDEC (R110) -/
  | hdrdec (data : List Byte)
  /-- SEND (R112) -/
  | send (data : List Byte)
  /-- RECV.S and RECV.L (R116): `c` is the op word's timeout class -/
  | recv (c : TimeoutClass) (data : List Byte)
  /-- READ n (R120) -/
  | read (n : Nat) (data : List Byte)
  /-- FLUSH (R125) -/
  | flush (data : List Byte)
  deriving DecidableEq, Repr

end Sys2Proof
end

