-- ==== Sys2Proof/WellFormed.lean ====
section
/-!
DEFINITION. The well-formed instructions: those whose command passes the checks 2 and 3 of R61.
An ill-formed instruction still decodes, and running it raises the fault the spec names.
-/

namespace Sys2Proof

/-- R61 step 2: UNPACK and PACK need a track field other than 0b00. -/
def Instr.trackLegal : Instr → Bool
  | .unpack tt _ => tt != 0#2
  | .pack tt _ => tt != 0#2
  | .hdrdec _ => true
  | .send _ => true
  | .recv _ _ => true
  | .read _ _ => true
  | .flush _ => true

/-- R76: the operand shapes, R61 step 3. -/
def Instr.shapeLegal : Instr → Bool
  | .unpack _ _ => true
  | .pack _ _ => true
  | .hdrdec data => data.length == 1
  | .send _ => true
  | .recv _ data => data.length == 0
  | .read _ data => data.length == 0
  | .flush data => data.length == 0

/-- An instruction that R61 lets run. -/
def WellFormed (i : Instr) : Bool := i.trackLegal && i.shapeLegal

end Sys2Proof
end

