-- ==== Sys2Proof/Decode.lean ====
section
/-!
DEFINITION. The decoder of the command port (R60 to R69, R74) and the encoder (R71). The decoder is
total: it answers an instruction or rejects the op word by name.
-/

namespace Sys2Proof

/-- Why the decoder rejects a command. -/
inductive DecodeError where
  /-- R61 step 1, R69: the op word is not assigned -/
  | badOpcode
  deriving DecidableEq, Repr

/-- R60: MAJ, bits 7..4 of the op word. -/
def opMaj (op : Byte) : BitVec 4 := op.extractLsb' 4 4

/-- R60: RSV, bits 3..2 of the op word. -/
def opRsv (op : Byte) : BitVec 2 := op.extractLsb' 2 2

/-- R60: MIN, bits 1..0 of the op word. -/
def opMin (op : Byte) : BitVec 2 := op.extractLsb' 0 2

/-- R66, R74: the timeout class of a legal RECV MIN field; 0b10 and 0b11 are illegal (R69). -/
def decodeTimeoutClass (m : BitVec 2) : Option TimeoutClass :=
  if m = 0#2 then some .short else if m = 1#2 then some .long else none

/-- R61 step 1 with R62 to R68 and R74: the operation an op word selects, with its operands. -/
def decode (c : Command) : Except DecodeError Instr :=
  if opRsv c.op ≠ 0#2 then .error .badOpcode
  else
    match (opMaj c.op).toNat with
    | 1 => .ok (.unpack (opMin c.op) c.data)
    | 2 => .ok (.pack (opMin c.op) c.data)
    | 3 => if opMin c.op = 0#2 then .ok (.hdrdec c.data) else .error .badOpcode
    | 4 => if opMin c.op = 0#2 then .ok (.send c.data) else .error .badOpcode
    | 5 =>
      match decodeTimeoutClass (opMin c.op) with
      | some tc => .ok (.recv tc c.data)
      | none => .error .badOpcode
    | 6 => if opMin c.op = 0#2 then .ok (.read c.n c.data) else .error .badOpcode
    | 7 => if opMin c.op = 0#2 then .ok (.flush c.data) else .error .badOpcode
    | _ => .error .badOpcode

/-- R60: an op word from its MAJ and MIN fields; RSV is 0b00. -/
def opWord (maj : BitVec 4) (m : BitVec 2) : Byte := maj ++ 0#2 ++ m

/-- R66: the MIN field of RECV.S and RECV.L. -/
def encodeTimeoutClass : TimeoutClass → BitVec 2
  | .short => 0#2
  | .long => 1#2

/-- R71: the command of an instruction, from the table of the assembler's forms. The `n` field is 0
where the operation ignores it. -/
def encode : Instr → Command
  | .unpack tt data => { op := opWord 1#4 tt, data := data, n := 0 }
  | .pack tt data => { op := opWord 2#4 tt, data := data, n := 0 }
  | .hdrdec data => { op := opWord 3#4 0#2, data := data, n := 0 }
  | .send data => { op := opWord 4#4 0#2, data := data, n := 0 }
  | .recv tc data => { op := opWord 5#4 (encodeTimeoutClass tc), data := data, n := 0 }
  | .read n data => { op := opWord 6#4 0#2, data := data, n := n }
  | .flush data => { op := opWord 7#4 0#2, data := data, n := 0 }

/-- The command that `nbits` bits `w`, numbered as spec/opcode_table.json numbers them, stand for:
the first byte is the op word, any later byte an operand byte, and what the table gives no bits is
zero: the count `n`, and the one operand byte of HDRDEC (R76). -/
def tableCommand (nbits w : Nat) : Command :=
  let op : Byte := BitVec.ofNat 8 w
  let given : List Byte := (List.range (nbits / 8 - 1)).map fun i => BitVec.ofNat 8 (w >>> (8 * (i + 1)))
  { op := op, data := if op = 0x30#8 ∧ given = [] then [0#8] else given, n := 0 }

/-- The instruction the decoder reads from an opcode-table word. -/
def decodeTableWord (nbits w : Nat) : Option Instr :=
  match decode (tableCommand nbits w) with
  | .ok i => some i
  | .error _ => none

end Sys2Proof
end

