-- ==== Sys2Proof/Machine/State.lean ====
section
/-!
DEFINITION. The state of the machine: the block's receive buffer and its operation in progress, its
ports as plain data, and the build parameters. The spec gives the block no register, no program
counter, no flag register and no addressable memory (R20, R21, R22, R24, R26).
-/

namespace Sys2Proof.Machine

/-- R140: the result codes. Their byte values are `Code.byte` in Machine/Flags.lean. -/
inductive Code where
  | ok | nothing | incomplete | short
  | badOpcode | badTrack | badOperand | charRange | parity
  deriving DecidableEq, Repr

/-- R28, R140: the result record of an operation. -/
structure Result where
  code : Code
  data : List Byte
  /-- the parity flag (R26, R84) -/
  pe : Bool
  /-- the index of the offending element for CHAR_RANGE and PARITY, otherwise 0 -/
  info : Nat
  deriving DecidableEq, Repr

/-- R116: how one receive ends. -/
inductive ReceiveCode where
  | ok | nothing | incomplete
  deriving DecidableEq, Repr

/-- R29, R116: the transient state of one receive, `acc` and `first`, with the timeout class every
attempt of it uses. -/
structure Receive where
  tc : TimeoutClass
  acc : List Byte
  first : Bool
  deriving DecidableEq, Repr

/-- R29, R155: an operation that waits for a `PktIn` answer, with its transient state. -/
inductive Pending where
  /-- RECV (R116) -/
  | recv (r : Receive)
  /-- READ n (R120); `inc` says that an earlier receive of this READ returned INCOMPLETE -/
  | read (n : Nat) (inc : Bool) (r : Receive)
  deriving DecidableEq, Repr

/-- The machine. -/
structure State where
  /-- RXBUF (R25): bytes received and not yet returned by READ, oldest first -/
  rxbuf : List Byte
  /-- TXLOG (R27): the packets handed to the transport, oldest first -/
  txlog : List Packet
  /-- the operation in progress (R29, R32), `none` between operations -/
  op : Option Pending
  /-- the command port and the reset input (R28, R160): what the host will present, in order -/
  hostIn : List HostInput
  /-- the result port (R28): the results answered, oldest first -/
  results : List Result
  /-- PKT_IN (R27): the transport's next answers, in order; after them the oracle answers -/
  pktIn : List Answer
  /-- PKT_IN (R27): the timeout class of every receive attempt made, oldest first -/
  attempts : List TimeoutClass
  /-- how many times `Draw()` (R13) has been called -/
  draws : Nat
  /-- the build parameters (R9, R24), which nothing writes -/
  params : BuildParams
  /-- whether the host has opened the transport (R163) -/
  transportOpen : Bool
  deriving DecidableEq, Repr

/-- Why the machine stops. -/
inductive Fault where
  /-- Raised by SEND, RECV and READ, and by an operation in progress, when the transport is not open.
  R163: "What a SEND, RECV or READ does on a transport that is not open is not in the source. A model
  has no step for it"; I19 calls it stuck. Safe: the machine stops where the spec gives no effect. -/
  | transportNotOpen
  deriving DecidableEq, Repr

/-- Why the machine has no meaning for an instruction. -/
inductive Refusal where
  /-- Raised by an arm of `exec` that has no meaning yet; no arm raises it now. Safe. -/
  | notModelled (mnemonic : String)
  deriving DecidableEq, Repr

/-- R31, R32, R162: the state after power-on, the clean state: RXBUF and TXLOG empty, no operation in
progress, the build parameters at this spec's values (R9). The ports are empty. The transport is open
(log entry 5). -/
def State.reset : State :=
  { rxbuf := []
    txlog := []
    op := none
    hostIn := []
    results := []
    pktIn := []
    attempts := []
    draws := 0
    params := BuildParams.spec
    transportOpen := true }

end Sys2Proof.Machine
end

