-- ==== Sys2Proof/Machine/Flags.lean ====
section
/-!
DEFINITION. The values a result carries beside its data: the result codes (R140) and the parity
function behind the `pe` flag (R83, R84).
-/

namespace Sys2Proof.Machine

/-- R140: the byte of a result code. -/
def Code.byte : Code → Byte
  | .ok => 0x00#8
  | .nothing => 0x01#8
  | .incomplete => 0x02#8
  | .short => 0x03#8
  | .badOpcode => 0x10#8
  | .badTrack => 0x11#8
  | .badOperand => 0x12#8
  | .charRange => 0x20#8
  | .parity => 0x21#8

/-- R140, R148: the fault class; every other code is below 0x10. -/
def Code.isFault (c : Code) : Bool := decide (0x10 ≤ c.byte.toNat)

/-- R118: the result code of a RECV whose receive ended so. -/
def ReceiveCode.code : ReceiveCode → Code
  | .ok => .ok
  | .nothing => .nothing
  | .incomplete => .incomplete

/-- R124: the code of a READ that did not end SHORT. -/
def readCode (inc : Bool) : Code := if inc then .incomplete else .ok

/-- R11: the number of 1 bits among the low `D` bits of `v`. -/
def popcount (D v : Nat) : Nat := (List.range D).countP v.testBit

/-- R83: `oddpar_D(d) = 1 xor (popcount(d[D-1:0]) mod 2)`. -/
def oddpar (D d : Nat) : Bool := popcount D d % 2 == 0

end Sys2Proof.Machine
end

