-- ==== Sys2Proof/Machine/Operands.lean ====
section
/-!
DEFINITION. The operand forms: the track table (R23), the raw bit stream and its groups (R40, R41,
R73), characters (R88), and the fields of a packet (R43, R72).
-/

namespace Sys2Proof.Machine

/-- R15, R23: one entry of the Track Density Parameter table, the pair (low_code_point,
bits_per_character). -/
structure TrackParams where
  low : Byte
  bits : Nat
  deriving DecidableEq, Repr

/-- R23, R74: the table TDP, by the op word's track field; 0b00 selects no entry (R141). -/
def tdp (tt : BitVec 2) : Option TrackParams :=
  match tt.toNat with
  | 1 => some { low := 0x20#8, bits := 7 }
  | 2 => some { low := 0x30#8, bits := 5 }
  | 3 => some { low := 0x30#8, bits := 5 }
  | _ => none

/-- R10: D(t) = N(t) - 1 data bits per character. -/
def TrackParams.dataBits (P : TrackParams) : Nat := P.bits - 1

/-- R10, R88: `c` lies in the alphabet A(t) = [L(t), L(t) + 2^D(t) - 1]. -/
def TrackParams.inAlphabet (P : TrackParams) (c : Byte) : Bool :=
  decide (P.low.toNat ≤ c.toNat ∧ c.toNat ≤ P.low.toNat + 2 ^ P.dataBits - 1)

/-- R40: bit k of the raw bit stream, `S[k] = b[k div 8][k mod 8]`. Past the end of `b` no rule reads
a bit; the model's reading there is false. -/
def streamBit (b : List Byte) (k : Nat) : Bool := (b.getD (k / 8) 0#8).getLsbD (k % 8)

/-- R41: the value of group g, `G_g = sum_{j<N} S[gN + j] << j`. -/
def group (N : Nat) (b : List Byte) (g : Nat) : Nat :=
  ((List.range N).map fun j => (streamBit b (g * N + j)).toNat <<< j).sum

/-- R41, R81: the whole groups of `b`, those with gN + N ≤ 8m, lowest-numbered first. -/
def groups (N : Nat) (b : List Byte) : List Nat :=
  (List.range (8 * b.length / N)).map (group N b)

/-- R41: the data field `G[D-1:0]` of a group. -/
def groupData (P : TrackParams) (G : Nat) : Nat := G % 2 ^ P.dataBits

/-- R41: the parity field `G[D]` of a group. -/
def groupParity (P : TrackParams) (G : Nat) : Bool := G.testBit P.dataBits

/-- R84: the group's parity bit differs from the odd parity of its data bits. -/
def parityMismatch (P : TrackParams) (G : Nat) : Bool :=
  groupParity P G != oddpar P.dataBits (groupData P G)

/-- R73, R80: the character a group's data stands for, `L + d`. -/
def charOf (P : TrackParams) (d : Nat) : Byte := P.low + BitVec.ofNat 8 d

/-- R86: the group of a character, `d or (oddpar_D(d) << D)` with `d = (c - L) and (2^D - 1)`. -/
def groupOf (P : TrackParams) (c : Byte) : Nat :=
  let d := (c - P.low).toNat &&& (2 ^ P.dataBits - 1)
  d ||| ((oddpar P.dataBits d).toNat <<< P.dataBits)

/-- R72: `hdr(sos, eos, len) = (sos << 7) or (eos << 6) or len`. -/
def hdr (sos eos : Bool) (len : Nat) : Byte :=
  (BitVec.ofNat 8 sos.toNat <<< 7) ||| (BitVec.ofNat 8 eos.toNat <<< 6) ||| BitVec.ofNat 8 len

/-- R72: `SOS = h[7]`. -/
def hdrSos (h : Byte) : Bool := h.getLsbD 7

/-- R72: `EOS = h[6]`. -/
def hdrEos (h : Byte) : Bool := h.getLsbD 6

/-- R72: `LEN = h[5:0]`, zero-extended. -/
def hdrLen (h : Byte) : Nat := (h.extractLsb' 0 6).toNat

end Sys2Proof.Machine

namespace Sys2Proof

/-- R43: byte 0 of a packet. A packet has 64 bytes, so the default is never read. -/
def Packet.header (p : Packet) : Byte := p.bytes.headD 0#8

/-- R43, R72: the header's EOS bit. -/
def Packet.eos (p : Packet) : Bool := Machine.hdrEos p.header

/-- R43, R117(a): bytes 1 to LEN of a packet, `p[1 .. 1 + LEN)`. -/
def Packet.payload (p : Packet) : List Byte := (p.bytes.drop 1).take (Machine.hdrLen p.header)

end Sys2Proof

namespace Sys2Proof.Machine

/-- R113: the packet count K = max(1, ceil(|m| / 63)). -/
def packetCount (m : List Byte) : Nat := max 1 ((m.length + 62) / 63)

/-- R112, R113: chunk k, `m[63*k .. min(63*k + 63, |m|))`. -/
def chunk (m : List Byte) (k : Nat) : List Byte := (m.drop (63 * k)).take 63

/-- R112, R114: the header of packet k of message `m`. -/
def sendHeader (m : List Byte) (k : Nat) : Byte :=
  hdr (k == 0) (k == packetCount m - 1) (chunk m k).length

/-- R112, R115: the packet `[h] ++ c ++ padding`, with `pad j` the j-th of the 63 - |c| padding bytes.
A chunk has at most 63 bytes (R113), so nothing is cut off it. -/
def framePacket (h : Byte) (c : List Byte) (pad : Nat → Byte) : Packet where
  bytes := h :: (c.take 63 ++ (List.range (63 - c.length)).map pad)
  length_eq := by simp; omega

end Sys2Proof.Machine
end

