-- ==== Sys2Proof/Machine/Ops.lean ====
section
/-!
DEFINITION. The shared operations over the state: answering a result, raising a fault (R143), the
reset input (R160), the packet ports (R27) and the receive that RECV and READ share (R116).
-/

namespace Sys2Proof.Machine

/-- R13 `return`, R28: the operation ends and its result goes to the result port. -/
def State.deliver (r : Result) (s : State) : State :=
  { s with results := s.results ++ [r], op := none }

/-- R13, R143: `raise Fault(code, info)`, this block's way of taking an exception: the result carries
the code and the info, its data is empty and its `pe` is 0, and nothing else happens. There is no
handler and no return (R148): the block waits for the next command. -/
def State.raiseFault (c : Code) (info : Nat) (s : State) : State :=
  s.deliver { code := c, data := [], pe := false, info := info }

/-- R13, R140: `return (code, data, pe)` of an operation that did not fault; info is 0. -/
def State.ret (c : Code) (data : List Byte) (pe : Bool) (s : State) : State :=
  s.deliver { code := c, data := data, pe := pe, info := 0 }

/-- R160: RESET, `RXBUF <- []` and nothing else. -/
def State.resetInput (s : State) : State := { s with rxbuf := [] }

/-- R13: `RXBUF <- v`. -/
def State.setRxbuf (v : List Byte) (s : State) : State := { s with rxbuf := v }

/-- R163, I19: SEND, RECV and READ go on only when the transport is open. -/
def State.onTransport (s : State) (t : State) : Host.Outcome State Fault Refusal :=
  if s.transportOpen then .next t else .fault .transportNotOpen

/-! ### PKT_OUT -/

/-- R13, R27: `PktOut(p)` appends p to TXLOG. -/
def State.pktOut (p : Packet) (s : State) : State := { s with txlog := s.txlog ++ [p] }

/-- R13: `Draw()` called `k` times. -/
def State.drawn (k : Nat) (s : State) : State := { s with draws := s.draws + k }

/-- R112: packet k of message `m`, its padding drawn from the draw after those made before it. -/
def sendPacket (m : List Byte) (draws k : Nat) : Packet :=
  framePacket (sendHeader m k) (chunk m k) fun j => Config.padDraw (draws + j)

/-- R112: one turn of SEND's loop. -/
def State.sendChunk (m : List Byte) (s : State) (k : Nat) : State :=
  (s.pktOut (sendPacket m s.draws k)).drawn (63 - (chunk m k).length)

/-- R112: SEND's loop over the K chunks, in order. -/
def State.sendAll (m : List Byte) (s : State) : State :=
  (List.range (packetCount m)).foldl (State.sendChunk m) s

/-! ### PKT_IN -/

/-- R155: the operation waits for the transport's answer. -/
def State.await (p : Pending) (s : State) : State := { s with op := some p }

/-- R27: one receive attempt is made, with timeout class `tc`. -/
def State.attempt (tc : TimeoutClass) (s : State) : State :=
  { s with attempts := s.attempts ++ [tc] }

/-- R116: a receive that has just begun. -/
def Receive.start (tc : TimeoutClass) : Receive := { tc := tc, acc := [], first := true }

/-- What one answer does to a receive. -/
inductive ReceiveStep where
  /-- the loop goes on -/
  | more (r : Receive)
  /-- the receive ends with a code and the bytes gathered -/
  | ended (rc : ReceiveCode) (m : List Byte)
  deriving DecidableEq, Repr

/-- R116, R117, R118: one turn of the loop of `receive(tc)`. SOS is not examined (D13). -/
def Receive.absorb (r : Receive) : Answer → ReceiveStep
  | .timeout => if r.first then .ended .nothing [] else .ended .incomplete r.acc
  | .packet p =>
    if p.eos then .ended .ok (r.acc ++ p.payload)
    else .more { r with acc := r.acc ++ p.payload, first := false }

/-- R120, R122: the head of READ's loop for n > 0: begin a receive with class LONG while |RXBUF| < n,
else return the first n bytes and keep the rest. -/
def State.readLoop (n : Nat) (inc : Bool) (s : State) : State :=
  if s.rxbuf.length < n then s.await (.read n inc (Receive.start .long))
  else (s.setRxbuf (s.rxbuf.drop n)).ret (readCode inc) (s.rxbuf.take n) false

/-- R120, R121, R123: what READ n does when a receive of it ended with `(rc, m)`. -/
def State.readReceived (n : Nat) (inc : Bool) (rc : ReceiveCode) (m : List Byte) (s : State) : State :=
  let buf := s.rxbuf ++ m
  let inc' := inc || rc == .incomplete
  if n = 0 then (s.setRxbuf []).ret (readCode inc') buf false
  else if rc = .nothing ∧ s.params.readTimeoutPolicy = .returnShort then
    (s.setRxbuf []).ret .short buf false
  else (s.setRxbuf buf).readLoop n inc'

/-- The receive an operation in progress is in. -/
def Pending.receive : Pending → Receive
  | .recv r => r
  | .read _ _ r => r

/-- The operation in progress with its receive one turn further. -/
def Pending.withReceive (r' : Receive) : Pending → Pending
  | .recv _ => .recv r'
  | .read n inc _ => .read n inc r'

/-- R116, R120: the receive of the operation in progress ended with `(rc, m)`. RECV returns that and
does not touch RXBUF; READ appends `m` to RXBUF and looks at it. -/
def State.receiveEnded (p : Pending) (rc : ReceiveCode) (m : List Byte) (s : State) : State :=
  match p with
  | .recv _ => s.ret rc.code m false
  | .read n inc _ => s.readReceived n inc rc m

/-- R116: `PktIn(tc)` of the operation in progress is answered `a`. -/
def State.accept (p : Pending) (a : Answer) (s : State) : State :=
  match p.receive.absorb a with
  | .more r' => (s.attempt p.receive.tc).await (p.withReceive r')
  | .ended rc m => (s.attempt p.receive.tc).receiveEnded p rc m

/-- R46: the operation in progress runs on the answers given, in order, until it completes or they
are used up. The answers it did not take stay with the transport (R117(d)). -/
def State.serve : List Answer → State → State
  | [], s => s
  | a :: as, s =>
    match s.op with
    | none => { s with pktIn := a :: as }
    | some p => State.serve as (s.accept p a)

/-- An operation runs on the answers that PKT_IN holds. -/
def State.serveAll (s : State) : State := State.serve s.pktIn { s with pktIn := [] }

/-- R27, R155: the operation `p` in progress asks the transport. What PKT_IN holds answers first;
where it holds nothing, the oracle gives one answer, so a step always comes to an end and an operation
that the transport keeps waiting (R166) is in progress for ever. -/
def State.resume (p : Pending) (s : State) : Host.Outcome State Fault Refusal :=
  s.onTransport <|
    match s.pktIn with
    | [] => s.accept p (Config.pktInDraw s.attempts.length p.receive.tc)
    | _ :: _ => s.serveAll

end Sys2Proof.Machine
end

