-- ==== Sys2Proof/Machine/Codec.lean ====
section
/-!
DEFINITION. The density codec: UNPACK (R80) and PACK (R86).
-/

namespace Sys2Proof.Machine

/-- R80: UNPACK's loop over the whole groups, the first of them group `g`. It answers the characters
and `pe`, or the index of the group at which strict parity (R85) ends it. -/
def unpackGroups (P : TrackParams) (strict : Bool) : List Nat → Nat → Except Nat (List Byte × Bool)
  | [], _ => .ok ([], false)
  | G :: Gs, g =>
    if groupData P G = 0 then .ok ([], false)
    else if strict && parityMismatch P G then .error g
    else
      match unpackGroups P strict Gs (g + 1) with
      | .error k => .error k
      | .ok (out, pe) => .ok (charOf P (groupData P G) :: out, parityMismatch P G || pe)

/-- R80: UNPACK of the raw bytes `b` on a track with parameters `P`. -/
def unpackBytes (P : TrackParams) (strict : Bool) (b : List Byte) : Except Nat (List Byte × Bool) :=
  unpackGroups P strict (groups P.bits b) 0

/-- R80: UNPACK t. -/
def execUnpack (tt : BitVec 2) (data : List Byte) (s : State) : Host.Outcome State Fault Refusal :=
  match tdp tt with
  | none => .next (s.raiseFault .badTrack 0)
  | some P =>
    match unpackBytes P s.params.strictParity data with
    | .error g => .next (s.raiseFault .parity g)
    | .ok (out, pe) => .next (s.ret .ok out pe)

/-- R88: the lowest index of a character outside A(t). -/
def rangeFault (P : TrackParams) (chars : List Byte) : Option Nat :=
  chars.findIdx? fun c => !P.inAlphabet c

/-- R86: `while nb >= 8`: the `k` low bytes of the accumulator, least significant first. -/
def emitBytes (acc k : Nat) : List Byte :=
  (List.range k).map fun i => BitVec.ofNat 8 (acc >>> (8 * i))

/-- R86: PACK's loop over the groups of N bits, with the accumulator `acc` holding `nb` bits, and
"flush any partial byte" at the end (R87). -/
def packGroups (N : Nat) : List Nat → (acc nb : Nat) → List Byte
  | [], acc, nb => if nb > 0 then [BitVec.ofNat 8 acc] else []
  | G :: Gs, acc, nb =>
    let acc' := acc ||| (G <<< nb)
    let nb' := nb + N
    emitBytes acc' (nb' / 8) ++ packGroups N Gs (acc' >>> (8 * (nb' / 8))) (nb' % 8)

/-- R86: PACK of the characters on a track with parameters `P`, once they passed the range check. -/
def packBytes (P : TrackParams) (chars : List Byte) : List Byte :=
  packGroups P.bits (chars.map (groupOf P)) 0 0

/-- R86: PACK t. -/
def execPack (tt : BitVec 2) (data : List Byte) (s : State) : Host.Outcome State Fault Refusal :=
  match tdp tt with
  | none => .next (s.raiseFault .badTrack 0)
  | some P =>
    match rangeFault P data with
    | some i => .next (s.raiseFault .charRange i)
    | none => .next (s.ret .ok (packBytes P data) false)

end Sys2Proof.Machine
end

