-- ==== Sys2Proof/Machine/Framer.lean ====
section
/-!
DEFINITION. The packet framer: HDRDEC (R110), SEND (R112), RECV (R116), READ (R120) and FLUSH (R125).
-/

namespace Sys2Proof.Machine

/-- R110: HDRDEC; BAD_OPERAND unless the operand is exactly one byte (R76). -/
def execHdrdec (data : List Byte) (s : State) : Host.Outcome State Fault Refusal :=
  match data with
  | [h] =>
    .next (s.ret .ok
      [BitVec.ofNat 8 (hdrSos h).toNat, BitVec.ofNat 8 (hdrEos h).toNat, BitVec.ofNat 8 (hdrLen h)] false)
  | _ => .next (s.raiseFault .badOperand 0)

/-- R112: SEND. -/
def execSend (data : List Byte) (s : State) : Host.Outcome State Fault Refusal :=
  s.onTransport ((s.sendAll data).ret .ok [] false)

/-- R116: RECV; BAD_OPERAND unless there is no operand (R76). -/
def execRecv (c : TimeoutClass) (data : List Byte) (s : State) : Host.Outcome State Fault Refusal :=
  if data ≠ [] then .next (s.raiseFault .badOperand 0)
  else s.onTransport (s.await (.recv (Receive.start c))).serveAll

/-- R120: READ n; BAD_OPERAND unless there is no byte operand (R76). READ 0 makes one receive with
class SHORT (R121). -/
def execRead (n : Nat) (data : List Byte) (s : State) : Host.Outcome State Fault Refusal :=
  if data ≠ [] then .next (s.raiseFault .badOperand 0)
  else if n = 0 then s.onTransport (s.await (.read 0 false (Receive.start .short))).serveAll
  else s.onTransport (s.readLoop n false).serveAll

/-- R125: FLUSH has no effect; BAD_OPERAND unless there is no operand (R76). -/
def execFlush (data : List Byte) (s : State) : Host.Outcome State Fault Refusal :=
  if data ≠ [] then .next (s.raiseFault .badOperand 0)
  else .next (s.ret .ok [] false)

end Sys2Proof.Machine
end

