-- ==== Sys2Proof/Machine/Dispatch.lean ====
section
/-!
DEFINITION. The meaning of every instruction, one arm each.
-/

namespace Sys2Proof.Machine

def exec (i : Instr) (s : State) : Host.Outcome State Fault Refusal :=
  match i with
  | .unpack tt data => Sys2Proof.Machine.execUnpack tt data s
  | .pack tt data => Sys2Proof.Machine.execPack tt data s
  | .hdrdec data => Sys2Proof.Machine.execHdrdec data s
  | .send data => Sys2Proof.Machine.execSend data s
  | .recv c data => Sys2Proof.Machine.execRecv c data s
  | .read n data => Sys2Proof.Machine.execRead n data s
  | .flush data => Sys2Proof.Machine.execFlush data s

end Sys2Proof.Machine
end

