-- ==== Sys2Proof/Machine/Step.lean ====
section
/-!
DEFINITION. One step of the machine (R21, R46): the operation in progress goes on, or the block takes
the next thing the host presents.
-/

namespace Sys2Proof.Machine

/-- R61: the block takes a command: BAD_OPCODE where the decoder rejects its op word (R69, R142), and
the instruction's meaning otherwise. -/
def runCommand (c : Command) (s : State) : Host.Outcome State Fault Refusal :=
  match decode c with
  | .error .badOpcode => .next (s.raiseFault .badOpcode 0)
  | .ok i => exec i s

/-- R21, R46, R161: while an operation is in progress it goes on and the host's inputs wait; between
operations the block takes the host's next command or reset, and with none it waits (R155). -/
def step (s : State) : Host.Outcome State Fault Refusal :=
  match s.op with
  | some p => s.resume p
  | none =>
    match s.hostIn with
    | [] => .next s
    | .reset :: rest => .next { s with hostIn := rest }.resetInput
    | .command c :: rest => runCommand c { s with hostIn := rest }

/-- The state `s` with the command of an opcode-table word presented next on the command port, and
no operation in progress, so that the very next step runs it. -/
def State.withFetchWord (s : State) (nbits w : Nat) : State :=
  { s with op := none, hostIn := .command (tableCommand nbits w) :: s.hostIn }

end Sys2Proof.Machine
end

