-- ==== Sys2Proof/Safety.lean ====
section
/-!
DEFINITION. The terms in which statements about the machine are made: when an operation can run, how a
message stands in packets, how a receive ends, which groups UNPACK emits, and the invariant.
-/

namespace Sys2Proof.Machine

/-- No operation is in progress (R32, R46) and the transport is open (R163): SEND, RECV and READ run. -/
def State.Ready (s : State) : Prop := s.op = none ∧ s.transportOpen = true

/-! ### Messages in packets -/

/-- R113, R114: the packets `ps` carry the message `m`: there are max(1, ceil(|m|/63)) of them, packet
k holds the 63 bytes from offset 63k (the last one those that remain), SOS is set in the first packet
only, EOS in the last only, and LEN is the number of bytes held. Padding is not spoken of (R115). -/
structure Carries (ps : List Packet) (m : List Byte) : Prop where
  count : ps.length = max 1 ((m.length + 62) / 63)
  payload : ∀ k p, ps[k]? = some p → p.payload = (m.drop (63 * k)).take 63
  header : ∀ k p, ps[k]? = some p →
    hdrSos p.header = decide (k = 0) ∧ hdrEos p.header = decide (k + 1 = ps.length) ∧
      hdrLen p.header = p.payload.length

/-- R51: TXLOG is a sequence of whole messages, each one's packets contiguous and in order. -/
def WholeMessages (log : List Packet) : Prop :=
  ∃ ms : List (List Packet × List Byte), log = (ms.map Prod.fst).flatten ∧ ∀ x ∈ ms, Carries x.1 x.2

/-- The payload bytes of packets, in order. -/
def payloads (ps : List Packet) : List Byte := (ps.map Packet.payload).flatten

/-! ### How a receive ends -/

/-- R116, R117, R118: one receive asks for exactly the answers `as` and ends with `(rc, m)`. Either its
last packet is the first with EOS = 1, or a TIMEOUT comes first of all, or a TIMEOUT comes after packets
without EOS. -/
def ReceiveEnds (as : List Answer) (rc : ReceiveCode) (m : List Byte) : Prop :=
  ∃ ps : List Packet, (∀ p ∈ ps, p.eos = false) ∧
    ((rc = .ok ∧ ∃ q : Packet, q.eos = true ∧ as = ps.map Answer.packet ++ [Answer.packet q] ∧
        m = payloads ps ++ q.payload) ∨
     (rc = .nothing ∧ ps = [] ∧ as = [Answer.timeout] ∧ m = []) ∨
     (rc = .incomplete ∧ ps ≠ [] ∧ as = ps.map Answer.packet ++ [Answer.timeout] ∧ m = payloads ps))

/-- A receive that ended: the answers it took, its code and its bytes. -/
structure Received where
  answers : List Answer
  rc : ReceiveCode
  bytes : List Byte

/-- The answers that receives took one after the other. -/
def allAnswers (rs : List Received) : List Answer := (rs.map Received.answers).flatten

/-- The bytes that receives gathered one after the other. -/
def allBytes (rs : List Received) : List Byte := (rs.map Received.bytes).flatten

/-- R124: some receive returned INCOMPLETE. -/
def anyIncomplete (rs : List Received) : Bool := rs.any fun r => r.rc == .incomplete

/-- R120, R122, R123: the receives `rs` of a READ n that goes on after each of them. Every one ended as
R116 says, none of them found n bytes buffered before it began, and under RETURN_SHORT none of them
returned NOTHING. -/
structure ReadGoesOn (s : State) (n : Nat) (rs : List Received) : Prop where
  ended : ∀ r ∈ rs, ReceiveEnds r.answers r.rc r.bytes
  wanted : ∀ j, j < rs.length → (s.rxbuf ++ allBytes (rs.take j)).length < n
  quiet : s.params.readTimeoutPolicy = .returnShort → ∀ r ∈ rs, r.rc ≠ .nothing

/-! ### The groups UNPACK emits -/

/-- R80, R81, R82: UNPACK emits groups 0 to k-1 of `b`: they are whole groups with data other than 0,
and group k, if it is whole, has data 0. -/
structure Emits (P : TrackParams) (b : List Byte) (k : Nat) : Prop where
  whole : k * P.bits ≤ 8 * b.length
  nonzero : ∀ g, g < k → groupData P (group P.bits b g) ≠ 0
  stops : (k + 1) * P.bits ≤ 8 * b.length → groupData P (group P.bits b k) = 0

/-- R80: the character of group g. -/
def charAt (P : TrackParams) (b : List Byte) (g : Nat) : Byte :=
  charOf P (groupData P (group P.bits b g))

/-- R84: group g has the wrong parity. -/
def mismatchAt (P : TrackParams) (b : List Byte) (g : Nat) : Bool :=
  parityMismatch P (group P.bits b g)

/-! ### What a command is before it runs -/

/-- R61 step 1, R69: the op word is not assigned: MAJ in {0, 8 .. F}, or RSV other than 0b00, or MIN
other than 0b00 for HDRDEC, SEND, READ and FLUSH, or MIN in {0b10, 0b11} for RECV. -/
def OpWordIllegal (w : Nat) : Prop :=
  w / 16 = 0 ∨ 8 ≤ w / 16 ∨ w / 4 % 4 ≠ 0 ∨
    ((w / 16 = 3 ∨ w / 16 = 4 ∨ w / 16 = 6 ∨ w / 16 = 7) ∧ w % 4 ≠ 0) ∨ (w / 16 = 5 ∧ 2 ≤ w % 4)

/-- R61 step 2, R141: UNPACK or PACK with MIN = 0b00. -/
def TrackIllegal (w : Nat) : Prop := w = 0x10 ∨ w = 0x20

/-- R61 step 3, R76: the operand shape is illegal for the op word's operation. -/
def ShapeIllegal (w : Nat) (len : Nat) : Prop :=
  (w = 0x30 ∧ len ≠ 1) ∨ ((w = 0x50 ∨ w = 0x51 ∨ w = 0x60 ∨ w = 0x70) ∧ len ≠ 0)

/-- R61 steps 1 to 3 with R147: the fault the checks before the operation report, if any. -/
inductive DecodeFault (w len : Nat) : Code → Prop where
  | opcode : OpWordIllegal w → DecodeFault w len .badOpcode
  | track : ¬ OpWordIllegal w → TrackIllegal w → DecodeFault w len .badTrack
  | operand : ¬ OpWordIllegal w → ¬ TrackIllegal w → ShapeIllegal w len → DecodeFault w len .badOperand

/-! ### Packets that differ in padding only -/

/-- R115, R165: two answers that agree in all but padding. -/
def SameButPadding : Answer → Answer → Prop
  | .timeout, .timeout => True
  | .packet p, .packet q => p.header = q.header ∧ p.payload = q.payload
  | _, _ => False

/-! ### The invariant -/

/-- R140: what a result record may be. -/
structure Result.Legal (r : Result) : Prop where
  /-- a fault has no data and pe = 0 (R143) -/
  fault : r.code.isFault = true → r.data = [] ∧ r.pe = false
  /-- only CHAR_RANGE and PARITY carry an info other than 0 (R28) -/
  info : r.info ≠ 0 → r.code = .charRange ∨ r.code = .parity
  /-- pe is set by an UNPACK that completed only (R26) -/
  pe : r.pe = true → r.code = .ok
  /-- NOTHING has no data (R118) -/
  nothing : r.code = .nothing → r.data = []

/-- R29, R116, R120: what the transient state of an operation in progress may be: nothing is gathered
before the first packet, READ 0 receives with class SHORT, and READ n for n > 0 receives with class
LONG and only while |RXBUF| < n. -/
def Pending.Legal (rxbuf : List Byte) : Pending → Prop
  | .recv r => r.first = true → r.acc = []
  | .read n _ r =>
    (r.first = true → r.acc = []) ∧ (n = 0 → r.tc = .short) ∧
      (0 < n → r.tc = .long ∧ rxbuf.length < n)

/-- What every step of the machine keeps. -/
structure State.Inv (s : State) : Prop where
  /-- an operation in progress has legal transient state -/
  pending : ∀ p, s.op = some p → p.Legal s.rxbuf
  /-- an operation waits only when it has used up the transport's answers (R46) -/
  waits : s.op ≠ none → s.pktIn = []
  /-- every result answered is one of R140's -/
  results : ∀ r ∈ s.results, r.Legal
  /-- TXLOG is a sequence of whole messages (R51) -/
  txlog : WholeMessages s.txlog

end Sys2Proof.Machine
end

