-- ==== Sys2Proof/Certificates/Slice0/Obligations.lean ====
section
/-!
DEFINITION. The statements for the provers, from the numbered rules of spec/. A statement whose
conclusion is `exec i s = .next t` for a written-out `t` says the instruction's whole effect and its
frame at once: every field of the state that `t` does not name is as in `s`.
-/

open Sys2Proof Sys2Proof.Machine

/-! ### Encoding and decoding -/

/-- R62 to R68: op words written out bit by bit from the spec decode to the operations they stand for. -/
def Obligations.SpecOpWordsDecode : Prop :=
  decode ⟨0b00010001#8, [0x41#8], 0⟩ = .ok (.unpack 1#2 [0x41#8]) ∧
  decode ⟨0b00010011#8, [], 7⟩ = .ok (.unpack 3#2 []) ∧
  decode ⟨0b00100010#8, [0x31#8], 0⟩ = .ok (.pack 2#2 [0x31#8]) ∧
  decode ⟨0b00110000#8, [0xC6#8], 0⟩ = .ok (.hdrdec [0xC6#8]) ∧
  decode ⟨0b01000000#8, [], 0⟩ = .ok (.send []) ∧
  decode ⟨0b01010000#8, [], 0⟩ = .ok (.recv .short []) ∧
  decode ⟨0b01010001#8, [], 0⟩ = .ok (.recv .long []) ∧
  decode ⟨0b01100000#8, [], 10⟩ = .ok (.read 10 []) ∧
  decode ⟨0b01110000#8, [], 0⟩ = .ok (.flush [])

/-- R60 to R68, R71, R74: decoding what was encoded gives the instruction back, with every operand; and
a command that decodes is the encoding of what it decodes to, but for a count that is not READ's. -/
def Obligations.DecodeInvertsEncode : Prop :=
  (∀ i : Instr, decode (encode i) = .ok i) ∧
  (∀ (c : Command) (i : Instr), decode c = .ok i → (encode i).op = c.op ∧ (encode i).data = c.data) ∧
  (∀ (c : Command) (n : Nat) (data : List Byte), decode c = .ok (.read n data) → n = c.n)

/-- R61, R69, R142, R144: the checks on a command in their order. The first that fails is reported with
nothing else changed; where none fails the op word selects a well-formed instruction, which runs. -/
def Obligations.CommandChecksInOrder : Prop :=
  ∀ (s : State) (c : Command) (rest : List HostInput), s.op = none → s.hostIn = .command c :: rest →
    (∀ f, DecodeFault c.op.toNat c.data.length f →
      step s = .next { s with
        hostIn := rest
        results := s.results ++ [{ code := f, data := [], pe := false, info := 0 }] }) ∧
    ((∀ f, ¬ DecodeFault c.op.toNat c.data.length f) → ∃ i, decode c = .ok i ∧
      WellFormed i = true ∧ step s = exec i { s with hostIn := rest })

/-- R76: "The `n` field is read only by READ. Every other operation ignores it." -/
def Obligations.CountReadByReadOnly : Prop :=
  ∀ (c : Command) (n : Nat), (∀ k data, decode c ≠ .ok (.read k data)) →
    decode { c with n := n } = decode c

/-- R72: the packet header is 128 SOS + 64 EOS + LEN, decoding gives the fields back, and every byte is
the header of its fields. -/
def Obligations.HeaderCodesItsFields : Prop :=
  (∀ (sos eos : Bool) (len : Nat), len ≤ 63 →
    (hdr sos eos len).toNat = 128 * sos.toNat + 64 * eos.toNat + len ∧
    hdrSos (hdr sos eos len) = sos ∧ hdrEos (hdr sos eos len) = eos ∧ hdrLen (hdr sos eos len) = len) ∧
  ∀ h : Byte, hdr (hdrSos h) (hdrEos h) (hdrLen h) = h ∧ hdrLen h ≤ 63

/-! ### The step -/

/-- R46, R61: between operations a step runs the decoded instruction on the state whose command has been
taken from the command port. -/
def Obligations.StepRunsDecodedInstruction : Prop :=
  ∀ (s : State) (c : Command) (rest : List HostInput) (i : Instr),
    s.op = none → s.hostIn = .command c :: rest → decode c = .ok i →
      step s = exec i { s with hostIn := rest }

/-- R160: RESET sets RXBUF to [] and does nothing else. -/
def Obligations.ResetInputEmptiesRxbuf : Prop :=
  ∀ (s : State) (rest : List HostInput), s.op = none → s.hostIn = .reset :: rest →
    step s = .next { s with hostIn := rest, rxbuf := [] }

/-- R161, R170, R29: while an operation is in progress a step neither takes nor looks at what the host
presents, a RESET or a command: with any other inputs it does the same, on the same answers of the
transport (log entry 2: the oracle's draw does not depend on the inputs). -/
def Obligations.HostWaitsForOperation : Prop :=
  ∀ (s t : State) (p : Pending), s.op = some p → step s = .next t →
    t.hostIn = s.hostIn ∧ ∀ h, step { s with hostIn := h } = .next { t with hostIn := h }

/-- R21, R155: with nothing presented the block waits. That waiting is a step that changes nothing is the
model's choice (log entry 8). -/
def Obligations.IdleBlockWaits : Prop :=
  ∀ s : State, s.op = none → s.hostIn = [] → step s = .next s

/-- R46, R29: cutting the transport's answers in two makes no difference. If an operation still waits
after the answers `as`, going on with the answers `bs` is the same as running on both from the start. -/
def Obligations.WaitingIsSeamless : Prop :=
  ∀ (i : Instr) (s t : State) (p : Pending) (as bs : List Answer), s.op = none →
    exec i { s with pktIn := as } = .next t → t.op = some p → bs ≠ [] →
      step { t with pktIn := bs } = exec i { s with pktIn := as ++ bs }

/-- R27: an operation that waits with no answer at hand is answered by the oracle, asked with the number
of the attempt and its timeout class. -/
def Obligations.OracleAnswersWaitingOperation : Prop :=
  ∀ (s : State) (p : Pending), s.op = some p → s.pktIn = [] →
    step s = step { s with pktIn := [Config.pktInDraw s.attempts.length p.receive.tc] }

/-! ### Reset and the invariant -/

/-- R32: the launch state is the clean state, with the build parameters at R9's values. -/
def Obligations.ResetStateIsClean : Prop :=
  State.reset.rxbuf = [] ∧ State.reset.txlog = [] ∧ State.reset.op = none ∧
    State.reset.params.strictParity = false ∧ State.reset.params.readTimeoutPolicy = .returnShort

/-- The invariant holds after reset. -/
def Obligations.ResetStateMeetsInvariant : Prop := State.reset.Inv

/-- Every step keeps the invariant: the transient state of an operation in progress is legal, an
operation waits only when the listed answers are used up, every result is one of R140's, and TXLOG is a
sequence of whole messages (R51). -/
def Obligations.StepKeepsInvariant : Prop :=
  ∀ s t : State, s.Inv → step s = .next t → t.Inv

/-! ### Whole-machine rules -/

/-- R24, R27, R46: no step writes the build parameters or the transport's status; the host's inputs are
taken one at a time in order; results, packets and attempts are only ever added, results one at a time. -/
def Obligations.StepFrame : Prop :=
  ∀ s t : State, step s = .next t →
    t.params = s.params ∧ t.transportOpen = s.transportOpen ∧
    (t.hostIn = s.hostIn ∨ ∃ x, s.hostIn = x :: t.hostIn) ∧
    (t.results = s.results ∨ ∃ r, t.results = s.results ++ [r]) ∧
    s.txlog <+: t.txlog ∧ s.attempts <+: t.attempts ∧ s.draws ≤ t.draws

/-- R143, R148: a command that ends in a fault changes nothing: the state is the one before it, with the
command taken and the fault's result answered, whose data is empty and whose pe is 0. -/
def Obligations.FaultHasNoOtherEffect : Prop :=
  ∀ (s t : State) (c : Command) (rest : List HostInput) (r : Result),
    s.op = none → s.hostIn = .command c :: rest → step s = .next t →
    t.results = s.results ++ [r] → r.code.isFault = true →
      t = { s with hostIn := rest, results := s.results ++ [r] } ∧ r.data = [] ∧ r.pe = false

/-- R25, R117: an instruction other than READ neither writes RXBUF nor depends on it. -/
def Obligations.OnlyReadUsesRxbuf : Prop :=
  ∀ (i : Instr) (s t : State) (v : List Byte), s.op = none → (∀ n data, i ≠ .read n data) →
    exec i s = .next t →
      t.rxbuf = s.rxbuf ∧ exec i { s with rxbuf := v } = .next { t with rxbuf := v }

/-- R27: TXLOG is extended by SEND only, and never read: with another TXLOG a step does the same, on the
same answers of the transport (log entry 2: the oracle's draw does not depend on TXLOG). -/
def Obligations.OnlySendExtendsTxlog : Prop :=
  ∀ s t : State, step s = .next t →
    (t.txlog ≠ s.txlog → s.op = none ∧ ∃ c rest m, s.hostIn = .command c :: rest ∧ decode c = .ok (.send m)) ∧
    ∃ new, t.txlog = s.txlog ++ new ∧ ∀ l, step { s with txlog := l } = .next { t with txlog := l ++ new }

/-- R26: only an UNPACK that completed answers pe = 1; an operation that waited answers pe = 0. -/
def Obligations.OnlyUnpackSetsPe : Prop :=
  (∀ (i : Instr) (s t : State) (r : Result), s.op = none → exec i s = .next t →
    t.results = s.results ++ [r] → r.pe = true → r.code = .ok ∧ ∃ tt data, i = .unpack tt data) ∧
  ∀ (s t : State) (p : Pending) (r : Result), s.op = some p → step s = .next t →
    t.results = s.results ++ [r] → r.pe = false

/-- R145: a well-formed instruction answers a fault only where a PACK meets a character outside the
alphabet, or an UNPACK under STRICT_PARITY a wrong parity; an operation that waited answers none. -/
def Obligations.FaultsOfWellFormedInstructions : Prop :=
  (∀ (i : Instr) (s t : State) (r : Result), s.op = none → WellFormed i = true → exec i s = .next t →
    t.results = s.results ++ [r] → r.code.isFault = true →
      (r.code = .charRange ∧ ∃ tt data, i = .pack tt data) ∨
      (r.code = .parity ∧ s.params.strictParity = true ∧ ∃ tt data, i = .unpack tt data)) ∧
  ∀ (s t : State) (p : Pending) (r : Result), s.op = some p → step s = .next t →
    t.results = s.results ++ [r] → r.code.isFault = false

/-- R163, I19: the machine never refuses, and it stops only where the transport is not open and an
operation is in progress, or the block takes a SEND, or a RECV or READ of legal operands; there it does
stop. That the stop is a named fault is log entry 5. -/
def Obligations.StepStopsOnClosedTransportOnly : Prop :=
  (∀ (s : State) (r : Refusal), step s ≠ .refused r) ∧
  (∀ (s : State) (f : Fault), step s = .fault f →
    f = .transportNotOpen ∧ s.transportOpen = false ∧
      ((∃ p, s.op = some p) ∨ ∃ c rest, s.hostIn = .command c :: rest ∧
        ((∃ m, decode c = .ok (.send m)) ∨ (∃ tc, decode c = .ok (.recv tc [])) ∨
          ∃ n, decode c = .ok (.read n [])))) ∧
  ∀ s : State, s.transportOpen = false →
    (∀ m, exec (.send m) s = .fault .transportNotOpen) ∧
    (∀ c, exec (.recv c []) s = .fault .transportNotOpen) ∧
    (∀ n, exec (.read n []) s = .fault .transportNotOpen) ∧
    (∀ p, s.op = some p → step s = .fault .transportNotOpen)

/-- R48, R163: UNPACK, PACK, HDRDEC and FLUSH run in every state between operations, whether or not the
transport is open, and only answer a result. -/
def Obligations.CodecHasNoSideEffects : Prop :=
  ∀ (i : Instr) (s : State), s.op = none →
    ((∃ tt data, i = .unpack tt data) ∨ (∃ tt data, i = .pack tt data) ∨ (∃ data, i = .hdrdec data) ∨
      ∃ data, i = .flush data) →
    ∃ r, exec i s = .next { s with results := s.results ++ [r] }

/-- R115, R117(a), R165: padding is never data. With the padding of the packets received changed, a step
does the same, and leaves the same packets to the transport but for their padding. -/
def Obligations.PaddingIsNeverData : Prop :=
  ∀ (s t : State) (as : List Answer), List.Forall₂ SameButPadding s.pktIn as → step s = .next t →
    ∃ bs, List.Forall₂ SameButPadding t.pktIn bs ∧
      step { s with pktIn := as } = .next { t with pktIn := bs }

/-- R140: the bytes of the result codes, and which of them are faults. -/
def Obligations.ResultCodeBytes : Prop :=
  [Code.ok, .nothing, .incomplete, .short].map Code.byte = [0x00#8, 0x01#8, 0x02#8, 0x03#8] ∧
  [Code.badOpcode, .badTrack, .badOperand, .charRange, .parity].map Code.byte =
    [0x10#8, 0x11#8, 0x12#8, 0x20#8, 0x21#8] ∧
  ∀ c : Code, c.isFault = true ↔
    c = .badOpcode ∨ c = .badTrack ∨ c = .badOperand ∨ c = .charRange ∨ c = .parity

/-! ### The density codec -/

/-- R10, R23: the track table, D(t), and the alphabets as ranges of code points. -/
def Obligations.TrackTableAndAlphabets : Prop :=
  tdp 0#2 = none ∧
  (∃ P, tdp 1#2 = some P ∧ P.low = 0x20#8 ∧ P.bits = 7 ∧ P.dataBits = 6 ∧
    ∀ c : Byte, P.inAlphabet c = true ↔ 0x20 ≤ c.toNat ∧ c.toNat ≤ 0x5F) ∧
  (∃ P, tdp 2#2 = some P ∧ tdp 3#2 = some P ∧ P.low = 0x30#8 ∧ P.bits = 5 ∧ P.dataBits = 4 ∧
    ∀ c : Byte, P.inAlphabet c = true ↔ 0x30 ≤ c.toNat ∧ c.toNat ≤ 0x3F)

/-- R83: the parity bit over the D data bits of a group makes the number of 1 bits of the group of D + 1
bits odd, and it covers the D data bits only. The spec marks this meaning of odd parity as general
knowledge (G1). -/
def Obligations.ParityMakesGroupsOdd : Prop :=
  ∀ D d : Nat,
    (oddpar D d).toNat = 1 ^^^ (popcount D d % 2) ∧
    popcount (D + 1) (d % 2 ^ D ||| (oddpar D d).toNat <<< D) % 2 = 1 ∧
    ∀ d', d % 2 ^ D = d' % 2 ^ D → oddpar D d = oddpar D d'

/-- R94: the parity values for D = 4 and the groups of the characters of tracks 2 and 3. -/
def Obligations.ParityTableOfTracksTwoAndThree : Prop :=
  (List.range 16).map (fun d => (oddpar 4 d).toNat) = [1, 0, 0, 1, 0, 1, 1, 0, 0, 1, 1, 0, 1, 0, 0, 1] ∧
  ∀ P, tdp 2#2 = some P ∨ tdp 3#2 = some P →
    (List.range 16).map (fun d => groupOf P (BitVec.ofNat 8 (0x30 + d))) =
      [0x10, 0x01, 0x02, 0x13, 0x04, 0x15, 0x16, 0x07, 0x08, 0x19, 0x1A, 0x0B, 0x1C, 0x0D, 0x0E, 0x1F]

/-- R80, R81, R84, R85: UNPACK with the track field 0b00 raises BAD_TRACK. On a track, it emits the
groups up to the first with data 0 or to the last whole one: it answers their characters, and pe says
whether a parity among them is wrong; under STRICT_PARITY the first wrong parity among them raises
PARITY with the group's index. -/
def Obligations.UnpackAnswersEmittedGroups : Prop :=
  ∀ (s : State) (tt : BitVec 2) (data : List Byte), s.op = none →
    (tt = 0#2 → exec (.unpack tt data) s = .next { s with
      results := s.results ++ [{ code := .badTrack, data := [], pe := false, info := 0 }] }) ∧
    ∀ P, tdp tt = some P → ∃ k, Emits P data k ∧
      ((s.params.strictParity = true → ∀ g, g < k → mismatchAt P data g = false) →
        exec (.unpack tt data) s = .next { s with
          results := s.results ++ [
            { code := .ok
              data := (List.range k).map (charAt P data)
              pe := (List.range k).any (mismatchAt P data)
              info := 0 }] }) ∧
      ∀ e, s.params.strictParity = true → e < k → mismatchAt P data e = true →
        (∀ g, g < e → mismatchAt P data g = false) →
        exec (.unpack tt data) s = .next { s with
          results := s.results ++ [{ code := .parity, data := [], pe := false, info := e }] }

/-- R89, R93: every character UNPACK answers lies in [L(t) + 1, L(t) + 2^D(t) - 1], and there are at most
floor(8m / N(t)) of them. -/
def Obligations.UnpackOutputBounds : Prop :=
  ∀ (s : State) (tt : BitVec 2) (P : TrackParams) (data : List Byte), s.op = none → tdp tt = some P →
    ∃ r, exec (.unpack tt data) s = .next { s with results := s.results ++ [r] } ∧
      (∀ c ∈ r.data, P.low.toNat + 1 ≤ c.toNat ∧ c.toNat ≤ P.low.toNat + 2 ^ P.dataBits - 1) ∧
      r.data.length ≤ 8 * data.length / P.bits

/-- R86, R87, R88: PACK with the track field 0b00 raises BAD_TRACK. On a track, a character outside the
alphabet raises CHAR_RANGE with the lowest such index. Otherwise PACK answers ceil(nN/8) bytes: group i
holds character i with its right parity, and the bits past the last group are 0. -/
def Obligations.PackAnswersGroups : Prop :=
  ∀ (s : State) (tt : BitVec 2) (data : List Byte), s.op = none →
    (tt = 0#2 → exec (.pack tt data) s = .next { s with
      results := s.results ++ [{ code := .badTrack, data := [], pe := false, info := 0 }] }) ∧
    ∀ P, tdp tt = some P →
      (∀ i c, data[i]? = some c → P.inAlphabet c = false →
        (∀ j d, j < i → data[j]? = some d → P.inAlphabet d = true) →
        exec (.pack tt data) s = .next { s with
          results := s.results ++ [{ code := .charRange, data := [], pe := false, info := i }] }) ∧
      ((∀ c ∈ data, P.inAlphabet c = true) → ∃ out,
        exec (.pack tt data) s = .next { s with
          results := s.results ++ [{ code := .ok, data := out, pe := false, info := 0 }] } ∧
        out.length = (data.length * P.bits + 7) / 8 ∧
        (∀ i c, data[i]? = some c → charAt P out i = c ∧ mismatchAt P out i = false) ∧
        ∀ k, data.length * P.bits ≤ k → streamBit out k = false)

/-- R90: the round trip from characters, under both values of STRICT_PARITY: PACK in a state `s` and
UNPACK of what it answered in any state `u`. -/
def Obligations.RoundTripFromCharacters : Prop :=
  ∀ (tt : BitVec 2) (P : TrackParams) (chars : List Byte), tdp tt = some P →
    (∀ c ∈ chars, P.inAlphabet c = true ∧ c ≠ P.low) →
    ∃ raw,
      (∀ s : State, s.op = none → exec (.pack tt chars) s = .next { s with
        results := s.results ++ [{ code := .ok, data := raw, pe := false, info := 0 }] }) ∧
      ∀ u : State, u.op = none → exec (.unpack tt raw) u = .next { u with
        results := u.results ++ [{ code := .ok, data := chars, pe := false, info := 0 }] }

/-- R91: the round trip from bytes: a byte string that UNPACK turns into a non-empty string, which PACK
turns back into it, is exactly a PACK of a non-empty string over the alphabet without L(t). -/
def Obligations.RoundTripFromBytes : Prop :=
  ∀ (s : State) (tt : BitVec 2) (P : TrackParams) (raw : List Byte), s.op = none → tdp tt = some P →
    ((∃ chars pe, chars ≠ [] ∧
        exec (.unpack tt raw) s = .next { s with
          results := s.results ++ [{ code := .ok, data := chars, pe := pe, info := 0 }] } ∧
        exec (.pack tt chars) s = .next { s with
          results := s.results ++ [{ code := .ok, data := raw, pe := false, info := 0 }] }) ↔
      ∃ chars, chars ≠ [] ∧ (∀ c ∈ chars, P.inAlphabet c = true ∧ c ≠ P.low) ∧
        exec (.pack tt chars) s = .next { s with
          results := s.results ++ [{ code := .ok, data := raw, pe := false, info := 0 }] })

/-- R92: what is packed from the first L(t) on is lost. -/
def Obligations.RoundTripTruncatesAtLow : Prop :=
  ∀ (tt : BitVec 2) (P : TrackParams) (chars : List Byte) (k : Nat), tdp tt = some P →
    (∀ c ∈ chars, P.inAlphabet c = true) → chars[k]? = some P.low →
    (∀ j, j < k → chars[j]? ≠ some P.low) →
    ∃ raw,
      (∀ s : State, s.op = none → exec (.pack tt chars) s = .next { s with
        results := s.results ++ [{ code := .ok, data := raw, pe := false, info := 0 }] }) ∧
      ∀ u : State, u.op = none → exec (.unpack tt raw) u = .next { u with
        results := u.results ++ [{ code := .ok, data := chars.take k, pe := false, info := 0 }] }

/-! ### The packet framer -/

/-- R110: HDRDEC answers SOS, EOS and LEN as three bytes, and raises BAD_OPERAND unless its operand is
one byte. -/
def Obligations.HdrdecSplitsHeader : Prop :=
  ∀ s : State, s.op = none →
    (∀ h : Byte, exec (.hdrdec [h]) s = .next { s with
      results := s.results ++ [
        { code := .ok
          data := [BitVec.ofNat 8 (h.toNat / 128), BitVec.ofNat 8 (h.toNat / 64 % 2),
            BitVec.ofNat 8 (h.toNat % 64)]
          pe := false
          info := 0 }] }) ∧
    ∀ data, data.length ≠ 1 → exec (.hdrdec data) s = .next { s with
      results := s.results ++ [{ code := .badOperand, data := [], pe := false, info := 0 }] }

/-- R112, R113: SEND emits the packets that carry its message, drawing one byte for each position of
padding, and answers OK. -/
def Obligations.SendEmitsMessage : Prop :=
  ∀ (s : State) (m : List Byte), s.Ready → ∃ ps, Carries ps m ∧
    exec (.send m) s = .next { s with
      txlog := s.txlog ++ ps
      draws := s.draws + (63 * ps.length - m.length)
      results := s.results ++ [{ code := .ok, data := [], pe := false, info := 0 }] }

/-- R114: the headers of the packets SEND emits: 0xC0 + |m| if there is one packet, and otherwise 0xBF,
then 0x3F for each middle packet, then 0x40 + LEN with LEN in 1..63. -/
def Obligations.SendHeaders : Prop :=
  ∀ (s : State) (m : List Byte), s.Ready → ∃ t ps,
    exec (.send m) s = .next t ∧ t.txlog = s.txlog ++ ps ∧
    (m.length ≤ 63 → ps.map Packet.header = [BitVec.ofNat 8 (0xC0 + m.length)]) ∧
    (63 < m.length → ∃ mid len, 1 ≤ len ∧ len ≤ 63 ∧ m.length = 63 * (mid + 1) + len ∧
      ps.map Packet.header =
        0xBF#8 :: (List.replicate mid 0x3F#8 ++ [BitVec.ofNat 8 (0x40 + len)]))

/-- R116, R117, R118: on the answers of a receive that ends with `(rc, m)`, RECV answers the code and the
bytes, having made every attempt with its own timeout class, and the answers after them stay with the
transport. With an operand it raises BAD_OPERAND. -/
def Obligations.RecvAnswersOneReceive : Prop :=
  (∀ (s : State) (c : TimeoutClass) (as rest : List Answer) (rc : ReceiveCode) (m : List Byte),
    s.Ready → ReceiveEnds as rc m → s.pktIn = as ++ rest →
      exec (.recv c []) s = .next { s with
        pktIn := rest
        attempts := s.attempts ++ List.replicate as.length c
        results := s.results ++ [{ code := rc.code, data := m, pe := false, info := 0 }] }) ∧
  ∀ (s : State) (c : TimeoutClass) (data : List Byte), s.op = none → data ≠ [] →
    exec (.recv c data) s = .next { s with
      results := s.results ++ [{ code := .badOperand, data := [], pe := false, info := 0 }] }

/-- R29, R116, R166: on packets without EOS, RECV is in progress with their payloads gathered, and has
answered nothing. -/
def Obligations.RecvWaitsWithoutEos : Prop :=
  ∀ (s : State) (c : TimeoutClass) (ps : List Packet), s.Ready → (∀ p ∈ ps, p.eos = false) →
    s.pktIn = ps.map .packet →
      exec (.recv c []) s = .next { s with
        pktIn := []
        attempts := s.attempts ++ List.replicate ps.length c
        op := some (.recv { tc := c, acc := payloads ps, first := ps.isEmpty }) }

/-- R166: RECV ends if the transport's answers hold a TIMEOUT or a packet with EOS. -/
def Obligations.RecvEndsOnEosOrTimeout : Prop :=
  ∀ (s : State) (c : TimeoutClass), s.Ready →
    (.timeout ∈ s.pktIn ∨ ∃ p, .packet p ∈ s.pktIn ∧ p.eos = true) →
    ∃ t r, exec (.recv c []) s = .next t ∧ t.op = none ∧ t.results = s.results ++ [r]

/-- R121: READ 0 makes one receive with class SHORT, whatever RXBUF holds, and drains RXBUF with what it
brought; the code is INCOMPLETE if the receive was, and otherwise OK. -/
def Obligations.ReadZeroDrains : Prop :=
  ∀ (s : State) (as rest : List Answer) (rc : ReceiveCode) (m : List Byte),
    s.Ready → ReceiveEnds as rc m → s.pktIn = as ++ rest →
      exec (.read 0 []) s = .next { s with
        rxbuf := []
        pktIn := rest
        attempts := s.attempts ++ List.replicate as.length .short
        results := s.results ++ [
          { code := if rc = .incomplete then .incomplete else .ok
            data := s.rxbuf ++ m
            pe := false
            info := 0 }] }

/-- R120, R122, R124: READ n for n > 0 receives with class LONG while fewer than n bytes are buffered
(not at all if n are, `rs` being then empty), returns the first n bytes and keeps the rest; the code is
INCOMPLETE if a receive was, and otherwise OK. -/
def Obligations.ReadReturnsFirstBytes : Prop :=
  ∀ (s : State) (n : Nat) (rs : List Received) (rest : List Answer),
    s.Ready → 0 < n → ReadGoesOn s n rs → s.pktIn = allAnswers rs ++ rest →
    n ≤ (s.rxbuf ++ allBytes rs).length →
      exec (.read n []) s = .next { s with
        rxbuf := (s.rxbuf ++ allBytes rs).drop n
        pktIn := rest
        attempts := s.attempts ++ List.replicate (allAnswers rs).length .long
        results := s.results ++ [
          { code := if anyIncomplete rs then .incomplete else .ok
            data := (s.rxbuf ++ allBytes rs).take n
            pe := false
            info := 0 }] }

/-- R123, and R124 for SHORT over INCOMPLETE: when a receive of READ n returns NOTHING, RETURN_SHORT ends the READ with code SHORT, all
of RXBUF and RXBUF empty, even if an earlier receive was INCOMPLETE; and under BLOCK, however many
TIMEOUT answers come in a row, READ n goes on in a new receive. That a READ which retries without end is
an operation in progress in a next state is the model's choice (log entry 4). -/
def Obligations.ReadWhenTransportIsQuiet : Prop :=
  (∀ (s : State) (n : Nat) (rs : List Received) (rest : List Answer),
    s.Ready → 0 < n → s.params.readTimeoutPolicy = .returnShort → ReadGoesOn s n rs →
    s.pktIn = allAnswers rs ++ .timeout :: rest → (s.rxbuf ++ allBytes rs).length < n →
      exec (.read n []) s = .next { s with
        rxbuf := []
        pktIn := rest
        attempts := s.attempts ++ List.replicate ((allAnswers rs).length + 1) .long
        results := s.results ++ [
          { code := .short, data := s.rxbuf ++ allBytes rs, pe := false, info := 0 }] }) ∧
  ∀ (s : State) (n : Nat) (rs : List Received) (k : Nat),
    s.Ready → 0 < n → s.params.readTimeoutPolicy = .block → ReadGoesOn s n rs →
    s.pktIn = allAnswers rs ++ List.replicate k .timeout → (s.rxbuf ++ allBytes rs).length < n →
      exec (.read n []) s = .next { s with
        rxbuf := s.rxbuf ++ allBytes rs
        pktIn := []
        attempts := s.attempts ++ List.replicate ((allAnswers rs).length + k) .long
        op := some (.read n (anyIncomplete rs) { tc := .long, acc := [], first := true }) }

/-- R29, R122, R166: when the answers run out, READ n is in progress: RXBUF holds what its ended receives
brought, and the receive it is in holds the payloads of the packets since. -/
def Obligations.ReadWaitsForMoreBytes : Prop :=
  ∀ (s : State) (n : Nat) (rs : List Received) (ps : List Packet),
    s.Ready → 0 < n → ReadGoesOn s n rs → (∀ p ∈ ps, p.eos = false) →
    s.pktIn = allAnswers rs ++ ps.map .packet → (s.rxbuf ++ allBytes rs).length < n →
      exec (.read n []) s = .next { s with
        rxbuf := s.rxbuf ++ allBytes rs
        pktIn := []
        attempts := s.attempts ++ List.replicate ((allAnswers rs).length + ps.length) .long
        op := some (.read n (anyIncomplete rs)
          { tc := .long, acc := payloads ps, first := ps.isEmpty }) }

/-- R29, R121, R166: when the answers run out on packets without EOS, READ 0 is in progress with class
SHORT: RXBUF is as it was, the receive holds the payloads gathered, and nothing is answered. That it waits
in a next state is the model's choice (log entry 4). -/
def Obligations.ReadZeroWaitsWithoutEos : Prop :=
  ∀ (s : State) (ps : List Packet), s.Ready → (∀ p ∈ ps, p.eos = false) → s.pktIn = ps.map .packet →
    exec (.read 0 []) s = .next { s with
      pktIn := []
      attempts := s.attempts ++ List.replicate ps.length .short
      op := some (.read 0 false { tc := .short, acc := payloads ps, first := ps.isEmpty }) }

/-- R144: the operand shapes that READ, RECV, FLUSH and HDRDEC reject, with nothing else done. -/
def Obligations.OperandsRejected : Prop :=
  ∀ (s : State) (data : List Byte), s.op = none →
    (data ≠ [] →
      (∀ n, exec (.read n data) s = .next { s with
        results := s.results ++ [{ code := .badOperand, data := [], pe := false, info := 0 }] }) ∧
      (∀ c, exec (.recv c data) s = .next { s with
        results := s.results ++ [{ code := .badOperand, data := [], pe := false, info := 0 }] }) ∧
      exec (.flush data) s = .next { s with
        results := s.results ++ [{ code := .badOperand, data := [], pe := false, info := 0 }] }) ∧
    (data.length ≠ 1 → exec (.hdrdec data) s = .next { s with
      results := s.results ++ [{ code := .badOperand, data := [], pe := false, info := 0 }] })

/-- R125: FLUSH answers OK and has no effect: RXBUF and the transport's packets stay. -/
def Obligations.FlushHasNoEffect : Prop :=
  ∀ s : State, s.op = none →
    exec (.flush []) s = .next { s with
      results := s.results ++ [{ code := .ok, data := [], pe := false, info := 0 }] } ∧
    ∀ data, data ≠ [] → exec (.flush data) s = .next { s with
      results := s.results ++ [{ code := .badOperand, data := [], pe := false, info := 0 }] }

/-- R119: the packets SEND(m) emitted, and any with the same headers and payloads, are max(1, ceil(|m|/63))
packets of 64 bytes, one with SOS and one with EOS; delivered in order to a receive with no TIMEOUT
between them, exactly they are consumed and the message comes back, whatever the padding. -/
def Obligations.ReceiveUndoesSend : Prop :=
  ∀ m : List Byte,
    (∀ s : State, s.Ready → ∃ t ps, exec (.send m) s = .next t ∧ t.txlog = s.txlog ++ ps ∧ Carries ps m) ∧
    ∀ ps : List Packet, Carries ps m →
      ps.length = max 1 ((m.length + 62) / 63) ∧ (∀ p ∈ ps, p.bytes.length = 64) ∧
      (ps.filter fun p => hdrSos p.header).length = 1 ∧ (ps.filter fun p => hdrEos p.header).length = 1 ∧
      ∀ (u : State) (c : TimeoutClass) (rest : List Answer), u.Ready → u.pktIn = ps.map .packet ++ rest →
        exec (.recv c []) u = .next { u with
          pktIn := rest
          attempts := u.attempts ++ List.replicate ps.length c
          results := u.results ++ [{ code := .ok, data := m, pe := false, info := 0 }] }

/-- R126: the loopback: with RXBUF empty and the packets SEND(m) emitted delivered in order, READ k for
0 < k ≤ |m| returns the first k bytes of m and keeps the rest, so READ |m| returns m and leaves RXBUF
empty. -/
def Obligations.LoopbackReadReturnsMessage : Prop :=
  ∀ (s : State) (m : List Byte), s.Ready → ∃ t ps,
    exec (.send m) s = .next t ∧ t.txlog = s.txlog ++ ps ∧
    ∀ (u : State) (k : Nat) (rest : List Answer), u.Ready → u.rxbuf = [] → 0 < k → k ≤ m.length →
      u.pktIn = ps.map .packet ++ rest →
        exec (.read k []) u = .next { u with
          rxbuf := m.drop k
          pktIn := rest
          attempts := u.attempts ++ List.replicate ps.length .long
          results := u.results ++ [{ code := .ok, data := m.take k, pe := false, info := 0 }] } ∧
        (k = m.length → m.take k = m ∧ m.drop k = [])
end

