-- ==== Sys2Proof/Laws/State.lean ====
section
/-!
SUPPORT. One lemma per field of State for each update of it, so that no proof unfolds an update.
-/

namespace Sys2Proof.Machine

@[simp] theorem State.deliver_rxbuf (r : Result) (s : State) : (s.deliver r).rxbuf = s.rxbuf := rfl
@[simp] theorem State.deliver_txlog (r : Result) (s : State) : (s.deliver r).txlog = s.txlog := rfl
@[simp] theorem State.deliver_op (r : Result) (s : State) : (s.deliver r).op = none := rfl
@[simp] theorem State.deliver_hostIn (r : Result) (s : State) :
    (s.deliver r).hostIn = s.hostIn := rfl
@[simp] theorem State.deliver_results (r : Result) (s : State) :
    (s.deliver r).results = s.results ++ [r] := rfl
@[simp] theorem State.deliver_pktIn (r : Result) (s : State) : (s.deliver r).pktIn = s.pktIn := rfl
@[simp] theorem State.deliver_attempts (r : Result) (s : State) :
    (s.deliver r).attempts = s.attempts := rfl
@[simp] theorem State.deliver_draws (r : Result) (s : State) : (s.deliver r).draws = s.draws := rfl
@[simp] theorem State.deliver_params (r : Result) (s : State) :
    (s.deliver r).params = s.params := rfl
@[simp] theorem State.deliver_transportOpen (r : Result) (s : State) :
    (s.deliver r).transportOpen = s.transportOpen := rfl

@[simp] theorem State.raiseFault_rxbuf (c : Code) (i : Nat) (s : State) :
    (s.raiseFault c i).rxbuf = s.rxbuf := rfl
@[simp] theorem State.raiseFault_txlog (c : Code) (i : Nat) (s : State) :
    (s.raiseFault c i).txlog = s.txlog := rfl
@[simp] theorem State.raiseFault_op (c : Code) (i : Nat) (s : State) :
    (s.raiseFault c i).op = none := rfl
@[simp] theorem State.raiseFault_hostIn (c : Code) (i : Nat) (s : State) :
    (s.raiseFault c i).hostIn = s.hostIn := rfl
@[simp] theorem State.raiseFault_results (c : Code) (i : Nat) (s : State) :
    (s.raiseFault c i).results = s.results ++ [{ code := c, data := [], pe := false, info := i }] := rfl
@[simp] theorem State.raiseFault_pktIn (c : Code) (i : Nat) (s : State) :
    (s.raiseFault c i).pktIn = s.pktIn := rfl
@[simp] theorem State.raiseFault_attempts (c : Code) (i : Nat) (s : State) :
    (s.raiseFault c i).attempts = s.attempts := rfl
@[simp] theorem State.raiseFault_draws (c : Code) (i : Nat) (s : State) :
    (s.raiseFault c i).draws = s.draws := rfl
@[simp] theorem State.raiseFault_params (c : Code) (i : Nat) (s : State) :
    (s.raiseFault c i).params = s.params := rfl
@[simp] theorem State.raiseFault_transportOpen (c : Code) (i : Nat) (s : State) :
    (s.raiseFault c i).transportOpen = s.transportOpen := rfl

@[simp] theorem State.ret_rxbuf (c : Code) (d : List Byte) (b : Bool) (s : State) :
    (s.ret c d b).rxbuf = s.rxbuf := rfl
@[simp] theorem State.ret_txlog (c : Code) (d : List Byte) (b : Bool) (s : State) :
    (s.ret c d b).txlog = s.txlog := rfl
@[simp] theorem State.ret_op (c : Code) (d : List Byte) (b : Bool) (s : State) :
    (s.ret c d b).op = none := rfl
@[simp] theorem State.ret_hostIn (c : Code) (d : List Byte) (b : Bool) (s : State) :
    (s.ret c d b).hostIn = s.hostIn := rfl
@[simp] theorem State.ret_results (c : Code) (d : List Byte) (b : Bool) (s : State) :
    (s.ret c d b).results = s.results ++ [{ code := c, data := d, pe := b, info := 0 }] := rfl
@[simp] theorem State.ret_pktIn (c : Code) (d : List Byte) (b : Bool) (s : State) :
    (s.ret c d b).pktIn = s.pktIn := rfl
@[simp] theorem State.ret_attempts (c : Code) (d : List Byte) (b : Bool) (s : State) :
    (s.ret c d b).attempts = s.attempts := rfl
@[simp] theorem State.ret_draws (c : Code) (d : List Byte) (b : Bool) (s : State) :
    (s.ret c d b).draws = s.draws := rfl
@[simp] theorem State.ret_params (c : Code) (d : List Byte) (b : Bool) (s : State) :
    (s.ret c d b).params = s.params := rfl
@[simp] theorem State.ret_transportOpen (c : Code) (d : List Byte) (b : Bool) (s : State) :
    (s.ret c d b).transportOpen = s.transportOpen := rfl

@[simp] theorem State.resetInput_rxbuf (s : State) : (s.resetInput).rxbuf = [] := rfl
@[simp] theorem State.resetInput_txlog (s : State) : (s.resetInput).txlog = s.txlog := rfl
@[simp] theorem State.resetInput_op (s : State) : (s.resetInput).op = s.op := rfl
@[simp] theorem State.resetInput_hostIn (s : State) : (s.resetInput).hostIn = s.hostIn := rfl
@[simp] theorem State.resetInput_results (s : State) : (s.resetInput).results = s.results := rfl
@[simp] theorem State.resetInput_pktIn (s : State) : (s.resetInput).pktIn = s.pktIn := rfl
@[simp] theorem State.resetInput_attempts (s : State) : (s.resetInput).attempts = s.attempts := rfl
@[simp] theorem State.resetInput_draws (s : State) : (s.resetInput).draws = s.draws := rfl
@[simp] theorem State.resetInput_params (s : State) : (s.resetInput).params = s.params := rfl
@[simp] theorem State.resetInput_transportOpen (s : State) :
    (s.resetInput).transportOpen = s.transportOpen := rfl

@[simp] theorem State.setRxbuf_rxbuf (v : List Byte) (s : State) : (s.setRxbuf v).rxbuf = v := rfl
@[simp] theorem State.setRxbuf_txlog (v : List Byte) (s : State) :
    (s.setRxbuf v).txlog = s.txlog := rfl
@[simp] theorem State.setRxbuf_op (v : List Byte) (s : State) : (s.setRxbuf v).op = s.op := rfl
@[simp] theorem State.setRxbuf_hostIn (v : List Byte) (s : State) :
    (s.setRxbuf v).hostIn = s.hostIn := rfl
@[simp] theorem State.setRxbuf_results (v : List Byte) (s : State) :
    (s.setRxbuf v).results = s.results := rfl
@[simp] theorem State.setRxbuf_pktIn (v : List Byte) (s : State) :
    (s.setRxbuf v).pktIn = s.pktIn := rfl
@[simp] theorem State.setRxbuf_attempts (v : List Byte) (s : State) :
    (s.setRxbuf v).attempts = s.attempts := rfl
@[simp] theorem State.setRxbuf_draws (v : List Byte) (s : State) :
    (s.setRxbuf v).draws = s.draws := rfl
@[simp] theorem State.setRxbuf_params (v : List Byte) (s : State) :
    (s.setRxbuf v).params = s.params := rfl
@[simp] theorem State.setRxbuf_transportOpen (v : List Byte) (s : State) :
    (s.setRxbuf v).transportOpen = s.transportOpen := rfl

@[simp] theorem State.pktOut_rxbuf (p : Packet) (s : State) : (s.pktOut p).rxbuf = s.rxbuf := rfl
@[simp] theorem State.pktOut_txlog (p : Packet) (s : State) :
    (s.pktOut p).txlog = s.txlog ++ [p] := rfl
@[simp] theorem State.pktOut_op (p : Packet) (s : State) : (s.pktOut p).op = s.op := rfl
@[simp] theorem State.pktOut_hostIn (p : Packet) (s : State) : (s.pktOut p).hostIn = s.hostIn := rfl
@[simp] theorem State.pktOut_results (p : Packet) (s : State) :
    (s.pktOut p).results = s.results := rfl
@[simp] theorem State.pktOut_pktIn (p : Packet) (s : State) : (s.pktOut p).pktIn = s.pktIn := rfl
@[simp] theorem State.pktOut_attempts (p : Packet) (s : State) :
    (s.pktOut p).attempts = s.attempts := rfl
@[simp] theorem State.pktOut_draws (p : Packet) (s : State) : (s.pktOut p).draws = s.draws := rfl
@[simp] theorem State.pktOut_params (p : Packet) (s : State) : (s.pktOut p).params = s.params := rfl
@[simp] theorem State.pktOut_transportOpen (p : Packet) (s : State) :
    (s.pktOut p).transportOpen = s.transportOpen := rfl

@[simp] theorem State.drawn_rxbuf (k : Nat) (s : State) : (s.drawn k).rxbuf = s.rxbuf := rfl
@[simp] theorem State.drawn_txlog (k : Nat) (s : State) : (s.drawn k).txlog = s.txlog := rfl
@[simp] theorem State.drawn_op (k : Nat) (s : State) : (s.drawn k).op = s.op := rfl
@[simp] theorem State.drawn_hostIn (k : Nat) (s : State) : (s.drawn k).hostIn = s.hostIn := rfl
@[simp] theorem State.drawn_results (k : Nat) (s : State) : (s.drawn k).results = s.results := rfl
@[simp] theorem State.drawn_pktIn (k : Nat) (s : State) : (s.drawn k).pktIn = s.pktIn := rfl
@[simp] theorem State.drawn_attempts (k : Nat) (s : State) :
    (s.drawn k).attempts = s.attempts := rfl
@[simp] theorem State.drawn_draws (k : Nat) (s : State) : (s.drawn k).draws = s.draws + k := rfl
@[simp] theorem State.drawn_params (k : Nat) (s : State) : (s.drawn k).params = s.params := rfl
@[simp] theorem State.drawn_transportOpen (k : Nat) (s : State) :
    (s.drawn k).transportOpen = s.transportOpen := rfl

@[simp] theorem State.await_rxbuf (p : Pending) (s : State) : (s.await p).rxbuf = s.rxbuf := rfl
@[simp] theorem State.await_txlog (p : Pending) (s : State) : (s.await p).txlog = s.txlog := rfl
@[simp] theorem State.await_op (p : Pending) (s : State) : (s.await p).op = some p := rfl
@[simp] theorem State.await_hostIn (p : Pending) (s : State) : (s.await p).hostIn = s.hostIn := rfl
@[simp] theorem State.await_results (p : Pending) (s : State) :
    (s.await p).results = s.results := rfl
@[simp] theorem State.await_pktIn (p : Pending) (s : State) : (s.await p).pktIn = s.pktIn := rfl
@[simp] theorem State.await_attempts (p : Pending) (s : State) :
    (s.await p).attempts = s.attempts := rfl
@[simp] theorem State.await_draws (p : Pending) (s : State) : (s.await p).draws = s.draws := rfl
@[simp] theorem State.await_params (p : Pending) (s : State) : (s.await p).params = s.params := rfl
@[simp] theorem State.await_transportOpen (p : Pending) (s : State) :
    (s.await p).transportOpen = s.transportOpen := rfl

@[simp] theorem State.attempt_rxbuf (tc : TimeoutClass) (s : State) :
    (s.attempt tc).rxbuf = s.rxbuf := rfl
@[simp] theorem State.attempt_txlog (tc : TimeoutClass) (s : State) :
    (s.attempt tc).txlog = s.txlog := rfl
@[simp] theorem State.attempt_op (tc : TimeoutClass) (s : State) : (s.attempt tc).op = s.op := rfl
@[simp] theorem State.attempt_hostIn (tc : TimeoutClass) (s : State) :
    (s.attempt tc).hostIn = s.hostIn := rfl
@[simp] theorem State.attempt_results (tc : TimeoutClass) (s : State) :
    (s.attempt tc).results = s.results := rfl
@[simp] theorem State.attempt_pktIn (tc : TimeoutClass) (s : State) :
    (s.attempt tc).pktIn = s.pktIn := rfl
@[simp] theorem State.attempt_attempts (tc : TimeoutClass) (s : State) :
    (s.attempt tc).attempts = s.attempts ++ [tc] := rfl
@[simp] theorem State.attempt_draws (tc : TimeoutClass) (s : State) :
    (s.attempt tc).draws = s.draws := rfl
@[simp] theorem State.attempt_params (tc : TimeoutClass) (s : State) :
    (s.attempt tc).params = s.params := rfl
@[simp] theorem State.attempt_transportOpen (tc : TimeoutClass) (s : State) :
    (s.attempt tc).transportOpen = s.transportOpen := rfl

/-! Between operations an answered result is the only change. -/

theorem State.deliver_idle {s : State} (h : s.op = none) (r : Result) :
    s.deliver r = { s with results := s.results ++ [r] } := by
  simp only [State.deliver, ← h]

theorem State.raiseFault_idle {s : State} (h : s.op = none) (c : Code) (i : Nat) :
    s.raiseFault c i =
      { s with results := s.results ++ [{ code := c, data := [], pe := false, info := i }] } :=
  State.deliver_idle h _

theorem State.ret_idle {s : State} (h : s.op = none) (c : Code) (d : List Byte) (b : Bool) :
    s.ret c d b = { s with results := s.results ++ [{ code := c, data := d, pe := b, info := 0 }] } :=
  State.deliver_idle h _

end Sys2Proof.Machine
end

