-- ==== Sys2Proof/Laws/Codec.lean ====
section
/-!
SUPPORT. The codec's functions said once: the raw bytes as one little-endian number (R40), its groups as
digits of it (R41), UNPACK's loop by the groups it emits (R80) and PACK's output as a number (R86).
-/

namespace Sys2Proof.Machine

/-! ### The raw bytes as a number -/

/-- R40: "the raw bytes are a little-endian number". -/
def leNat : List Byte → Nat
  | [] => 0
  | x :: xs => 2 ^ 8 * leNat xs + x.toNat

theorem leNat_lt (b : List Byte) : leNat b < 2 ^ (8 * b.length) := by
  induction b with
  | nil => simp [leNat]
  | cons x xs ih =>
    have hx : x.toNat < 2 ^ 8 := x.isLt
    rw [leNat, List.length_cons, Nat.mul_succ, Nat.pow_add, Nat.mul_comm (2 ^ (8 * xs.length))]
    calc 2 ^ 8 * leNat xs + x.toNat < 2 ^ 8 * (leNat xs + 1) := by omega
      _ ≤ 2 ^ 8 * 2 ^ (8 * xs.length) := Nat.mul_le_mul_left _ ih

/-- R40: a bit of the stream is a bit of the number. -/
theorem testBit_leNat (b : List Byte) (k : Nat) : (leNat b).testBit k = streamBit b k := by
  induction b generalizing k with
  | nil => simp [leNat, streamBit]
  | cons x xs ih =>
    rw [leNat, Nat.testBit_two_pow_mul_add _ x.isLt]
    split
    · next h => simp [streamBit, Nat.div_eq_of_lt h, Nat.mod_eq_of_lt h, BitVec.getLsbD]
    · next h =>
      obtain ⟨j, rfl⟩ : ∃ j, k = j + 8 := ⟨k - 8, by omega⟩
      rw [Nat.add_sub_cancel, ih]
      simp [streamBit]

/-- Byte strings of one length are equal if their numbers are. -/
theorem leNat_inj {b c : List Byte} (hl : b.length = c.length) (h : leNat b = leNat c) : b = c := by
  induction b generalizing c with
  | nil => exact (List.length_eq_zero_iff.1 hl.symm).symm
  | cons x xs ih =>
    obtain _ | ⟨y, ys⟩ := c
    · simp at hl
    · have hx := x.isLt
      have hy := y.isLt
      simp only [leNat] at h
      have h1 : x.toNat = y.toNat := by omega
      have h2 : leNat xs = leNat ys := by omega
      rw [BitVec.eq_of_toNat_eq h1, ih (by simpa using hl) h2]

/-! ### Groups -/

/-- A sum of single bits, each shifted to its place, has those bits. -/
theorem testBit_bitSum (f : Nat → Bool) (N i : Nat) :
    ((List.range N).map fun j => (f j).toNat <<< j).sum < 2 ^ N ∧
      ((List.range N).map fun j => (f j).toNat <<< j).sum.testBit i = (decide (i < N) && f i) := by
  induction N with
  | zero => simp
  | succ N ih =>
    obtain ⟨hlt, hbit⟩ := ih
    rw [List.range_succ, List.map_append, List.sum_append]
    simp only [List.map_cons, List.map_nil, List.sum_cons, List.sum_nil, Nat.add_zero,
      Nat.shiftLeft_eq]
    simp only [Nat.shiftLeft_eq] at hlt hbit
    constructor
    · rw [Nat.pow_succ]
      have : (f N).toNat * 2 ^ N ≤ 2 ^ N := by
        cases f N <;> simp
      omega
    · rw [Nat.add_comm, Nat.mul_comm, Nat.testBit_two_pow_mul_add _ hlt]
      split
      · next h => simp [hbit, h, Nat.lt_succ_of_lt h]
      · next h =>
        rcases Nat.lt_or_ge N i with hi | hi
        · obtain ⟨d, rfl⟩ : ∃ d, i = N + 1 + d := ⟨i - N - 1, by omega⟩
          have : N + 1 + d - N = d + 1 := by omega
          have hfalse : decide (N + 1 + d < N + 1) = false := decide_eq_false (by omega)
          rw [this, Nat.testBit_succ, hfalse]
          cases f N <;> simp
        · obtain rfl : i = N := by omega
          cases f i <;> simp

/-- R41: group g is the N bits of the number from bit gN on. -/
theorem group_eq (N : Nat) (b : List Byte) (g : Nat) :
    group N b g = (leNat b >>> (g * N)) % 2 ^ N := by
  refine Nat.eq_of_testBit_eq fun i => ?_
  rw [group, (testBit_bitSum _ N i).2, Nat.testBit_mod_two_pow, Nat.testBit_shiftRight, testBit_leNat]

theorem group_lt (N : Nat) (b : List Byte) (g : Nat) : group N b g < 2 ^ N := by
  rw [group_eq]
  exact Nat.mod_lt _ (Nat.two_pow_pos N)

/-! ### UNPACK -/

/-- R80: the groups of `Gs`, numbered from `g`, of which the first `k` are emitted: they have data other
than 0, and the one after them, if there is one, has data 0. Without a parity error among the `k`, or
with STRICT_PARITY false, UNPACK's loop answers their characters and whether a parity was wrong. -/
theorem unpackGroups_ok {P : TrackParams} {strict : Bool} {Gs : List Nat} {k : Nat} (g : Nat)
    (hk : k ≤ Gs.length) (hne : ∀ G ∈ Gs.take k, groupData P G ≠ 0)
    (hstop : ∀ G, Gs[k]? = some G → groupData P G = 0)
    (hpar : strict = true → ∀ G ∈ Gs.take k, parityMismatch P G = false) :
    unpackGroups P strict Gs g =
      .ok ((Gs.take k).map (fun G => charOf P (groupData P G)), (Gs.take k).any (parityMismatch P)) := by
  induction Gs generalizing k g with
  | nil => simp [unpackGroups]
  | cons G Gs ih =>
    cases k with
    | zero => simp [unpackGroups, hstop G (by simp)]
    | succ k =>
      have h0 : groupData P G ≠ 0 := hne G (by simp)
      have hs : (strict && parityMismatch P G) = false := by
        cases hst : strict with
        | false => rfl
        | true => simpa using hpar hst G (by simp)
      rw [unpackGroups, if_neg h0, hs, if_neg (by simp),
        ih (k := k) (g + 1) (by simpa using hk) (fun G' h => hne G' (by simp [h]))
          (fun G' h => hstop G' (by simpa using h)) (fun hst G' h => hpar hst G' (by simp [h]))]
      simp

/-- R85: under STRICT_PARITY the loop ends at the first emitted group with a wrong parity. -/
theorem unpackGroups_parity {P : TrackParams} {Gs : List Nat} {e : Nat} (g : Nat)
    (hne : ∀ G ∈ Gs.take (e + 1), groupData P G ≠ 0)
    (hok : ∀ G ∈ Gs.take e, parityMismatch P G = false)
    (hbad : ∃ G, Gs[e]? = some G ∧ parityMismatch P G = true) :
    unpackGroups P true Gs g = .error (g + e) := by
  induction Gs generalizing e g with
  | nil => simp at hbad
  | cons G Gs ih =>
    have h0 : groupData P G ≠ 0 := hne G (by simp)
    cases e with
    | zero =>
      obtain ⟨G', hG, hb⟩ := hbad
      obtain rfl : G = G' := by simpa using hG
      simp [unpackGroups, h0, hb]
    | succ e =>
      have hp : parityMismatch P G = false := hok G (by simp)
      rw [unpackGroups, if_neg h0, hp, if_neg (by simp),
        ih (e := e) (g + 1) (fun G' h => hne G' (by simp [h])) (fun G' h => hok G' (by simp [h]))
          (by simpa using hbad)]
      simp only [Except.error.injEq]
      omega

theorem groups_length (N : Nat) (b : List Byte) : (groups N b).length = 8 * b.length / N := by
  simp [groups]

theorem groups_get {N : Nat} {b : List Byte} {g : Nat} (h : g < 8 * b.length / N) :
    (groups N b)[g]? = some (group N b g) := by
  simp [groups, List.getElem?_range h]

theorem groups_take {N k : Nat} {b : List Byte} (h : k ≤ 8 * b.length / N) :
    (groups N b).take k = (List.range k).map (group N b) := by
  rw [groups, ← List.map_take, List.take_range, Nat.min_eq_left h]

/-- R80: UNPACK of bytes of which groups 0 to k-1 are emitted, with no parity fault. -/
theorem unpackBytes_ok {P : TrackParams} (hN : 0 < P.bits) {strict : Bool} {b : List Byte} {k : Nat}
    (h : Emits P b k) (hpar : strict = true → ∀ g, g < k → mismatchAt P b g = false) :
    unpackBytes P strict b = .ok ((List.range k).map (charAt P b), (List.range k).any (mismatchAt P b)) := by
  have hk : k ≤ 8 * b.length / P.bits := (Nat.le_div_iff_mul_le hN).2 h.whole
  rw [unpackBytes, unpackGroups_ok (k := k) 0 (by rwa [groups_length]), groups_take hk]
  · simp [Function.comp_def, charAt, List.any_map]; rfl
  · rw [groups_take hk]
    simpa using fun g hg => h.nonzero g hg
  · intro G hG
    have hlt : k < 8 * b.length / P.bits := by
      rw [← groups_length]
      exact (List.getElem?_eq_some_iff.1 hG).1
    obtain rfl : group P.bits b k = G := by simpa [groups_get hlt] using hG
    exact h.stops ((Nat.le_div_iff_mul_le hN).1 hlt)
  · rw [groups_take hk]
    simpa [mismatchAt] using hpar

/-- R85: UNPACK under STRICT_PARITY of bytes with a wrong parity in an emitted group. -/
theorem unpackBytes_parity {P : TrackParams} (hN : 0 < P.bits) {b : List Byte} {k e : Nat}
    (h : Emits P b k) (he : e < k) (hbad : mismatchAt P b e = true)
    (hok : ∀ g, g < e → mismatchAt P b g = false) : unpackBytes P true b = .error e := by
  have hk : k ≤ 8 * b.length / P.bits := (Nat.le_div_iff_mul_le hN).2 h.whole
  rw [unpackBytes, unpackGroups_parity (e := e) 0, Nat.zero_add]
  · rw [groups_take (by omega)]
    simpa using fun g hg => h.nonzero g (by omega)
  · rw [groups_take (by omega)]
    simpa [mismatchAt] using hok
  · exact ⟨_, groups_get (by omega), hbad⟩

/-- R80: every byte string has the number of groups that UNPACK emits of it. -/
theorem exists_emits {P : TrackParams} (hN : 0 < P.bits) (b : List Byte) : ∃ k, Emits P b k := by
  let stopsAt (k : Nat) : Prop := (k + 1) * P.bits ≤ 8 * b.length → groupData P (group P.bits b k) = 0
  have hex : ∃ k, stopsAt k := ⟨8 * b.length, fun h => by
    exfalso
    have : 8 * b.length + 1 ≤ (8 * b.length + 1) * P.bits := Nat.le_mul_of_pos_right _ hN
    omega⟩
  classical
  refine ⟨Nat.find hex, ?_, fun g hg => ?_, Nat.find_spec hex⟩
  · rcases hk : Nat.find hex with _ | k
    · simp
    · have := Nat.find_min hex (m := k) (by omega)
      simp only [stopsAt, Classical.not_imp] at this
      exact this.1
  · have := Nat.find_min hex hg
    simp only [stopsAt, Classical.not_imp] at this
    exact this.2

/-! ### PACK -/

/-- Groups of N bits put one after the other from bit 0 on (R86: "group i at stream bits iN .. iN+N-1"). -/
def catGroups (N : Nat) : List Nat → Nat
  | [] => 0
  | G :: Gs => G ||| (catGroups N Gs <<< N)

theorem catGroups_lt {N : Nat} {Gs : List Nat} (h : ∀ G ∈ Gs, G < 2 ^ N) :
    catGroups N Gs < 2 ^ (N * Gs.length) := by
  induction Gs with
  | nil => simp [catGroups]
  | cons G Gs ih =>
    have hG : G < 2 ^ N := h G (by simp)
    have hGs := ih fun G' h' => h G' (by simp [h'])
    rw [catGroups, List.length_cons, Nat.mul_succ]
    refine Nat.or_lt_two_pow (Nat.lt_of_lt_of_le hG (Nat.pow_le_pow_right (by omega) (by omega))) ?_
    rw [Nat.shiftLeft_eq, Nat.pow_add]
    exact Nat.mul_lt_mul_of_pos_right hGs (Nat.two_pow_pos N)

/-- R86: digit i of the groups put together is group i, and above them all digits are 0. -/
theorem catGroups_digit {N : Nat} {Gs : List Nat} (h : ∀ G ∈ Gs, G < 2 ^ N) (i : Nat) :
    (catGroups N Gs >>> (i * N)) % 2 ^ N = Gs.getD i 0 := by
  induction Gs generalizing i with
  | nil => simp [catGroups]
  | cons G Gs ih =>
    have hG : G < 2 ^ N := h G (by simp)
    cases i with
    | zero =>
      simp only [Nat.zero_mul, Nat.shiftRight_zero, catGroups, List.getD_cons_zero]
      rw [Nat.or_mod_two_pow, Nat.mod_eq_of_lt hG, Nat.shiftLeft_eq, Nat.mul_mod_left, Nat.or_zero]
    | succ i =>
      rw [List.getD_cons_succ, ← ih (fun G' h' => h G' (by simp [h'])) i, catGroups]
      congr 1
      rw [Nat.succ_mul, Nat.add_comm, Nat.shiftRight_add, Nat.shiftRight_or_distrib,
        Nat.shiftRight_eq_div_pow G, Nat.div_eq_of_lt hG, Nat.zero_or, Nat.shiftLeft_shiftRight]

@[simp] theorem emitBytes_length (acc k : Nat) : (emitBytes acc k).length = k := by
  simp [emitBytes]

theorem leNat_append (b c : List Byte) : leNat (b ++ c) = leNat b ||| (leNat c <<< (8 * b.length)) := by
  induction b with
  | nil => simp [leNat]
  | cons x xs ih =>
    refine Nat.eq_of_testBit_eq fun i => ?_
    simp only [List.cons_append, leNat, ih, Nat.testBit_or, Nat.testBit_two_pow_mul_add _ x.isLt,
      Nat.testBit_shiftLeft, List.length_cons]
    by_cases hi : i < 8
    · simp [hi, show ¬ 8 * (xs.length + 1) ≤ i by omega]
    · have : (8 * (xs.length + 1) ≤ i) = (8 * xs.length ≤ i - 8) := by
        apply propext; omega
      simp [hi, this, show i - 8 - 8 * xs.length = i - 8 * (xs.length + 1) by omega]

/-- R86: the bytes taken off the accumulator are its low bits. -/
theorem leNat_emitBytes (acc k : Nat) : leNat (emitBytes acc k) = acc % 2 ^ (8 * k) := by
  refine Nat.eq_of_testBit_eq fun i => ?_
  rw [testBit_leNat, Nat.testBit_mod_two_pow, streamBit]
  by_cases hi : i < 8 * k
  · have hd : i / 8 < k := by omega
    have h8 : i % 8 < 8 := Nat.mod_lt _ (by omega)
    have : (emitBytes acc k).getD (i / 8) 0#8 = BitVec.ofNat 8 (acc >>> (8 * (i / 8))) := by
      simp [emitBytes, List.getElem?_range hd]
    rw [this, BitVec.getLsbD_ofNat, Nat.testBit_shiftRight, Nat.div_add_mod]
    simp [h8, hi]
  · have hd : k ≤ i / 8 := by omega
    simp [emitBytes, List.getD, hi, hd]

/-- R86, R87: PACK's loop, with `nb` < 8 bits in the accumulator, puts the groups after those bits,
fills the last byte with zeros, and answers as many bytes as that takes. -/
theorem packGroups_spec {N : Nat} {Gs : List Nat} {acc nb : Nat} (hG : ∀ G ∈ Gs, G < 2 ^ N)
    (ha : acc < 2 ^ nb) (hn : nb < 8) :
    leNat (packGroups N Gs acc nb) = acc ||| (catGroups N Gs <<< nb) ∧
      (packGroups N Gs acc nb).length = (nb + Gs.length * N + 7) / 8 := by
  induction Gs generalizing acc nb with
  | nil =>
    rw [packGroups]
    by_cases h0 : 0 < nb
    · have : acc < 2 ^ 8 := Nat.lt_of_lt_of_le ha (Nat.pow_le_pow_right (by omega) (by omega))
      rw [if_pos h0]
      constructor
      · simp only [leNat, catGroups, BitVec.toNat_ofNat, Nat.mod_eq_of_lt this]
        simp
      · simp; omega
    · obtain rfl : nb = 0 := by omega
      obtain rfl : acc = 0 := by simpa using ha
      simp [leNat, catGroups]
  | cons G Gs ih =>
    have hG0 : G < 2 ^ N := hG G (by simp)
    have hlt : acc ||| (G <<< nb) < 2 ^ (nb + N) := by
      refine Nat.or_lt_two_pow (Nat.lt_of_lt_of_le ha (Nat.pow_le_pow_right (by omega) (by omega))) ?_
      rw [Nat.shiftLeft_eq, Nat.pow_add, Nat.mul_comm]
      exact Nat.mul_lt_mul_of_pos_left hG0 (Nat.two_pow_pos nb)
    have hsplit : nb + N = 8 * ((nb + N) / 8) + (nb + N) % 8 := (Nat.div_add_mod _ _).symm
    have hacc : (acc ||| (G <<< nb)) >>> (8 * ((nb + N) / 8)) < 2 ^ ((nb + N) % 8) := by
      rw [Nat.shiftRight_eq_div_pow, Nat.div_lt_iff_lt_mul (Nat.two_pow_pos _), ← Nat.pow_add,
        Nat.add_comm, ← hsplit]
      exact hlt
    obtain ⟨ih1, ih2⟩ := ih (fun G' h => hG G' (by simp [h])) hacc (Nat.mod_lt _ (by omega))
    rw [packGroups]
    constructor
    · rw [leNat_append, leNat_emitBytes, emitBytes_length, ih1]
      refine Nat.eq_of_testBit_eq fun i => ?_
      simp only [catGroups, Nat.testBit_or, Nat.testBit_shiftLeft, Nat.testBit_mod_two_pow,
        Nat.testBit_shiftRight]
      by_cases hi : i < 8 * ((nb + N) / 8)
      · have h1 : ¬ 8 * ((nb + N) / 8) ≤ i := by omega
        by_cases hnb : nb ≤ i
        · have h2 : ¬ N ≤ i - nb := by omega
          simp [hi, h1, h2]
        · simp [hi, h1, hnb]
      · have h1 : 8 * ((nb + N) / 8) ≤ i := by omega
        have h2 : 8 * ((nb + N) / 8) + (i - 8 * ((nb + N) / 8)) = i := by omega
        by_cases hr : nb + N ≤ i
        · have h3 : (nb + N) % 8 ≤ i - 8 * ((nb + N) / 8) := by omega
          have h4 : i - 8 * ((nb + N) / 8) - (nb + N) % 8 = i - nb - N := by omega
          simp [hi, h1, h2, h3, h4, show nb ≤ i by omega, show N ≤ i - nb by omega, Bool.or_assoc]
        · have h3 : ¬ (nb + N) % 8 ≤ i - 8 * ((nb + N) / 8) := by omega
          by_cases hnb : nb ≤ i
          · simp [hi, h1, h2, h3, hnb, show ¬ N ≤ i - nb by omega]
          · simp [hi, h1, h2, h3, hnb]
    · rw [List.length_append, emitBytes_length, ih2, List.length_cons, Nat.succ_mul]
      omega

/-! ### The two character formats -/

/-- R23: the entries of the track table. -/
theorem tdp_cases {tt : BitVec 2} {P : TrackParams} (h : tdp tt = some P) :
    P = { low := 0x20#8, bits := 7 } ∨ P = { low := 0x30#8, bits := 5 } := by
  unfold tdp at h
  split at h <;> simp_all

/-- R141: only the track field 0b00 selects no entry. -/
theorem tdp_none {tt : BitVec 2} : tdp tt = none ↔ tt = 0#2 := by
  have all : ∀ t : BitVec 2, tdp t = none ↔ t = 0#2 := by decide
  exact all tt

/-- R86, R73: the group of a character of the alphabet has N bits, its data stands for the character,
its parity is right, and its data is 0 for L(t) only. -/
theorem groupOf_spec {tt : BitVec 2} {P : TrackParams} (h : tdp tt = some P) {c : Byte}
    (hc : P.inAlphabet c = true) :
    groupOf P c < 2 ^ P.bits ∧ charOf P (groupData P (groupOf P c)) = c ∧
      parityMismatch P (groupOf P c) = false ∧ (groupData P (groupOf P c) = 0 ↔ c = P.low) := by
  have h1 : ∀ c : Byte, TrackParams.inAlphabet { low := 0x20#8, bits := 7 } c = true →
      groupOf { low := 0x20#8, bits := 7 } c < 2 ^ 7 ∧
      charOf { low := 0x20#8, bits := 7 } (groupData { low := 0x20#8, bits := 7 }
        (groupOf { low := 0x20#8, bits := 7 } c)) = c ∧
      parityMismatch { low := 0x20#8, bits := 7 } (groupOf { low := 0x20#8, bits := 7 } c) = false ∧
      (groupData { low := 0x20#8, bits := 7 } (groupOf { low := 0x20#8, bits := 7 } c) = 0 ↔
        c = 0x20#8) := by decide
  have h2 : ∀ c : Byte, TrackParams.inAlphabet { low := 0x30#8, bits := 5 } c = true →
      groupOf { low := 0x30#8, bits := 5 } c < 2 ^ 5 ∧
      charOf { low := 0x30#8, bits := 5 } (groupData { low := 0x30#8, bits := 5 }
        (groupOf { low := 0x30#8, bits := 5 } c)) = c ∧
      parityMismatch { low := 0x30#8, bits := 5 } (groupOf { low := 0x30#8, bits := 5 } c) = false ∧
      (groupData { low := 0x30#8, bits := 5 } (groupOf { low := 0x30#8, bits := 5 } c) = 0 ↔
        c = 0x30#8) := by decide
  rcases tdp_cases h with rfl | rfl
  · exact h1 c hc
  · exact h2 c hc

/-- R73, R80: the character of a group is of the alphabet, above L(t) unless the data is 0, and packs
back to the group if the group's parity is right. -/
theorem charOf_spec {tt : BitVec 2} {P : TrackParams} (h : tdp tt = some P) {G : Nat}
    (hG : G < 2 ^ P.bits) :
    P.inAlphabet (charOf P (groupData P G)) = true ∧
      (charOf P (groupData P G) = P.low ↔ groupData P G = 0) ∧
      (groupOf P (charOf P (groupData P G)) = G ↔ parityMismatch P G = false) := by
  have h1 : ∀ G < 2 ^ 7,
      TrackParams.inAlphabet { low := 0x20#8, bits := 7 }
        (charOf { low := 0x20#8, bits := 7 } (groupData { low := 0x20#8, bits := 7 } G)) = true ∧
      (charOf { low := 0x20#8, bits := 7 } (groupData { low := 0x20#8, bits := 7 } G) = 0x20#8 ↔
        groupData { low := 0x20#8, bits := 7 } G = 0) ∧
      (groupOf { low := 0x20#8, bits := 7 }
        (charOf { low := 0x20#8, bits := 7 } (groupData { low := 0x20#8, bits := 7 } G)) = G ↔
        parityMismatch { low := 0x20#8, bits := 7 } G = false) := by decide
  have h2 : ∀ G < 2 ^ 5,
      TrackParams.inAlphabet { low := 0x30#8, bits := 5 }
        (charOf { low := 0x30#8, bits := 5 } (groupData { low := 0x30#8, bits := 5 } G)) = true ∧
      (charOf { low := 0x30#8, bits := 5 } (groupData { low := 0x30#8, bits := 5 } G) = 0x30#8 ↔
        groupData { low := 0x30#8, bits := 5 } G = 0) ∧
      (groupOf { low := 0x30#8, bits := 5 }
        (charOf { low := 0x30#8, bits := 5 } (groupData { low := 0x30#8, bits := 5 } G)) = G ↔
        parityMismatch { low := 0x30#8, bits := 5 } G = false) := by decide
  rcases tdp_cases h with rfl | rfl
  · exact h1 G hG
  · exact h2 G hG

/-- R86, R87: what PACK's bytes are: their number of bytes and each whole group of them; a group past
the characters is 0, since the fill bits are. -/
theorem packBytes_spec {tt : BitVec 2} {P : TrackParams} (h : tdp tt = some P) {chars : List Byte}
    (hc : ∀ c ∈ chars, P.inAlphabet c = true) :
    (packBytes P chars).length = (chars.length * P.bits + 7) / 8 ∧
      (∀ g, group P.bits (packBytes P chars) g = (chars.map (groupOf P)).getD g 0) ∧
      ∀ k, chars.length * P.bits ≤ k → streamBit (packBytes P chars) k = false := by
  have hG : ∀ G ∈ chars.map (groupOf P), G < 2 ^ P.bits := by
    intro G hG
    obtain ⟨c, hmem, rfl⟩ := List.mem_map.1 hG
    exact (groupOf_spec h (hc c hmem)).1
  obtain ⟨hnat, hlen⟩ := packGroups_spec (acc := 0) (nb := 0) hG (by simp) (by omega)
  have hnum : leNat (packBytes P chars) = catGroups P.bits (chars.map (groupOf P)) := by
    simpa [packBytes] using hnat
  refine ⟨by simpa [packBytes] using hlen, fun g => ?_, fun k hk => ?_⟩
  · rw [group_eq, hnum, catGroups_digit hG]
  · rw [← testBit_leNat, hnum]
    refine Nat.testBit_lt_two_pow (Nat.lt_of_lt_of_le (catGroups_lt hG) ?_)
    exact Nat.pow_le_pow_right (by omega) (by simpa [Nat.mul_comm] using hk)

end Sys2Proof.Machine
end

