-- ==== Sys2Proof/Laws/Decode.lean ====
section
/-!
SUPPORT. The fields of an op word (R60) and what the decoder can answer (R61).
-/

namespace Sys2Proof

@[simp] theorem opMaj_opWord (a : BitVec 4) (b : BitVec 2) : opMaj (opWord a b) = a := by
  revert a b; decide

@[simp] theorem opRsv_opWord (a : BitVec 4) (b : BitVec 2) : opRsv (opWord a b) = 0#2 := by
  revert a b; decide

@[simp] theorem opMin_opWord (a : BitVec 4) (b : BitVec 2) : opMin (opWord a b) = b := by
  revert a b; decide

/-- R60: an op word with RSV = 0b00 is made of its MAJ and MIN fields. -/
theorem opWord_fields {w : Byte} (h : opRsv w = 0#2) : opWord (opMaj w) (opMin w) = w := by
  revert w; decide

@[simp] theorem decodeTimeoutClass_encode (tc : TimeoutClass) :
    decodeTimeoutClass (encodeTimeoutClass tc) = some tc := by
  cases tc <;> decide

/-- R61, R62 to R68: what the decoder answers, said by the fields of the op word. -/
theorem decode_ok {c : Command} {i : Instr} (h : decode c = .ok i) :
    opRsv c.op = 0#2 ∧
      ((opMaj c.op = 1#4 ∧ i = .unpack (opMin c.op) c.data) ∨
       (opMaj c.op = 2#4 ∧ i = .pack (opMin c.op) c.data) ∨
       (opMaj c.op = 3#4 ∧ opMin c.op = 0#2 ∧ i = .hdrdec c.data) ∨
       (opMaj c.op = 4#4 ∧ opMin c.op = 0#2 ∧ i = .send c.data) ∨
       (opMaj c.op = 5#4 ∧ ∃ tc, opMin c.op = encodeTimeoutClass tc ∧ i = .recv tc c.data) ∨
       (opMaj c.op = 6#4 ∧ opMin c.op = 0#2 ∧ i = .read c.n c.data) ∨
       (opMaj c.op = 7#4 ∧ opMin c.op = 0#2 ∧ i = .flush c.data)) := by
  have num : ∀ k, (opMaj c.op).toNat = k → opMaj c.op = BitVec.ofNat 4 k := by
    rintro k rfl; simp
  unfold decode at h
  split at h
  · cases h
  · next hr =>
    refine ⟨not_not.1 hr, ?_⟩
    split at h
    · next hm => cases h; exact .inl ⟨num 1 hm, rfl⟩
    · next hm => cases h; exact .inr (.inl ⟨num 2 hm, rfl⟩)
    · next hm =>
      split at h
      · next h0 => cases h; exact .inr (.inr (.inl ⟨num 3 hm, h0, rfl⟩))
      · cases h
    · next hm =>
      split at h
      · next h0 => cases h; exact .inr (.inr (.inr (.inl ⟨num 4 hm, h0, rfl⟩)))
      · cases h
    · next hm =>
      split at h
      · next tc htc =>
        cases h
        refine .inr (.inr (.inr (.inr (.inl ⟨num 5 hm, tc, ?_, rfl⟩))))
        revert htc
        generalize opMin c.op = m
        revert m
        cases tc <;> decide
      · cases h
    · next hm =>
      split at h
      · next h0 => cases h; exact .inr (.inr (.inr (.inr (.inr (.inl ⟨num 6 hm, h0, rfl⟩)))))
      · cases h
    · next hm =>
      split at h
      · next h0 => cases h; exact .inr (.inr (.inr (.inr (.inr (.inr ⟨num 7 hm, h0, rfl⟩)))))
      · cases h
    · cases h

end Sys2Proof
end

