-- ==== Sys2Proof/Laws/PerInstr.lean ====
section
/-!
SUPPORT. The statements made for each instruction: its encoding is a word of its row of
spec/opcode_table.json.
-/

namespace Sys2Proof.Laws.EncodedWord

/-- The `mask` and `match` of an instruction's row in spec/opcode_table.json, written out from there. -/
def row : Instr → Byte × Byte
  | .unpack _ _ => (0xFC#8, 0x10#8)
  | .pack _ _ => (0xFC#8, 0x20#8)
  | .hdrdec _ => (0xFF#8, 0x30#8)
  | .send _ => (0xFF#8, 0x40#8)
  | .recv _ _ => (0xFE#8, 0x50#8)
  | .read _ _ => (0xFF#8, 0x60#8)
  | .flush _ => (0xFF#8, 0x70#8)

/-- R62 to R68: the op word that `encode` gives an instruction matches its row of the opcode table. -/
def Statement (i : Instr) : Prop := (encode i).op &&& (row i).1 = (row i).2

theorem unpack (tt : BitVec 2) (data : List Byte) : Statement (.unpack tt data) := by
  revert tt; simp only [Statement, encode, row]; decide

theorem pack (tt : BitVec 2) (data : List Byte) : Statement (.pack tt data) := by
  revert tt; simp only [Statement, encode, row]; decide

theorem hdrdec (data : List Byte) : Statement (.hdrdec data) := by
  simp only [Statement, encode, row]; decide

theorem send (data : List Byte) : Statement (.send data) := by
  simp only [Statement, encode, row]; decide

theorem recv (c : TimeoutClass) (data : List Byte) : Statement (.recv c data) := by
  cases c <;> simp only [Statement, encode, row] <;> decide

theorem read (n : Nat) (data : List Byte) : Statement (.read n data) := by
  simp only [Statement, encode, row]; decide

theorem flush (data : List Byte) : Statement (.flush data) := by
  simp only [Statement, encode, row]; decide

end Sys2Proof.Laws.EncodedWord
end

