-- ==== Sys2Proof/Laws/Receive.lean ====
section
/-!
SUPPORT. What the shared receive (R116) can do: on packets without EOS it goes on, on the answers of a
receive that ends it ends, and cutting the answers in two changes nothing.
-/

namespace Sys2Proof.Machine

@[simp] theorem payloads_nil : payloads [] = [] := rfl

@[simp] theorem payloads_cons (p : Packet) (ps : List Packet) :
    payloads (p :: ps) = p.payload ++ payloads ps := by
  simp [payloads]

@[simp] theorem allAnswers_cons (r : Received) (rs : List Received) :
    allAnswers (r :: rs) = r.answers ++ allAnswers rs := by
  simp [allAnswers]

@[simp] theorem allBytes_cons (r : Received) (rs : List Received) :
    allBytes (r :: rs) = r.bytes ++ allBytes rs := by
  simp [allBytes]

@[simp] theorem withReceive_receive (p : Pending) (r : Receive) : (p.withReceive r).receive = r := by
  cases p <;> rfl

@[simp] theorem withReceive_withReceive (p : Pending) (r r' : Receive) :
    (p.withReceive r).withReceive r' = p.withReceive r' := by
  cases p <;> rfl

@[simp] theorem withReceive_self (p : Pending) : p.withReceive p.receive = p := by
  cases p <;> rfl

/-- The operation that waits does not matter to the end of its receive, but for its kind. -/
@[simp] theorem receiveEnded_withReceive (p : Pending) (r : Receive) (rc : ReceiveCode) (m : List Byte)
    (s : State) : s.receiveEnded (p.withReceive r) rc m = s.receiveEnded p rc m := by
  cases p <;> rfl

theorem absorb_eos {r : Receive} {p : Packet} (h : p.eos = true) :
    r.absorb (.packet p) = .ended .ok (r.acc ++ p.payload) := by
  simp [Receive.absorb, h]

theorem absorb_noEos {r : Receive} {p : Packet} (h : p.eos = false) :
    r.absorb (.packet p) = .more { r with acc := r.acc ++ p.payload, first := false } := by
  simp [Receive.absorb, h]

/-- `k` receive attempts of one timeout class. -/
def State.attemptsMade (k : Nat) (tc : TimeoutClass) (s : State) : State :=
  { s with attempts := s.attempts ++ List.replicate k tc }

@[simp] theorem attemptsMade_zero (tc : TimeoutClass) (s : State) : s.attemptsMade 0 tc = s := by
  simp [State.attemptsMade]

theorem attempt_attemptsMade (k : Nat) (tc : TimeoutClass) (s : State) :
    (s.attempt tc).attemptsMade k tc = s.attemptsMade (k + 1) tc := by
  simp [State.attemptsMade, State.attempt, List.replicate_succ]

/-- With no operation in progress the answers stay with the transport. -/
theorem serve_idle {as : List Answer} {s : State} (ho : s.op = none) (hp : s.pktIn = []) :
    State.serve as s = { s with pktIn := as } := by
  cases as with
  | nil => obtain ⟨⟩ := s; simp_all [State.serve]
  | cons a as => simp [State.serve, ho]

theorem serve_cons {p : Pending} {a : Answer} {as : List Answer} {s : State} (ho : s.op = some p) :
    State.serve (a :: as) s = State.serve as (s.accept p a) := by
  simp [State.serve, ho]

/-- R116, R117: packets without EOS only gather their payloads. -/
theorem serve_packets {ps : List Packet} (hps : ∀ q ∈ ps, q.eos = false) (p : Pending)
    (as : List Answer) (s : State) :
    State.serve (ps.map .packet ++ as) (s.await p) =
      State.serve as ((s.attemptsMade ps.length p.receive.tc).await
        (p.withReceive { p.receive with
          acc := p.receive.acc ++ payloads ps, first := p.receive.first && ps.isEmpty })) := by
  induction ps generalizing p s with
  | nil => simp [Pending.withReceive, Pending.receive]; cases p <;> rfl
  | cons q ps ih =>
    have hq : q.eos = false := hps q (by simp)
    have step : (s.await p).accept p (.packet q) = (s.attempt p.receive.tc).await
        (p.withReceive { p.receive with acc := p.receive.acc ++ q.payload, first := false }) := by
      simp only [State.accept, absorb_noEos hq]
      rfl
    rw [List.map_cons, List.cons_append, serve_cons (State.await_op p s), step,
      ih fun r hr => hps r (by simp [hr])]
    simp [attempt_attemptsMade]

/-- R116, R117, R118: on the answers of a receive that ends with `(rc, m)`, a receive that has just
begun ends with `(rc, m)`, every attempt of its one class, and the answers after them remain. -/
theorem serve_receiveEnds {as : List Answer} {rc : ReceiveCode} {m : List Byte}
    (h : ReceiveEnds as rc m) {p : Pending} {tc : TimeoutClass} (hp : p.receive = Receive.start tc)
    (bs : List Answer) (s : State) :
    State.serve (as ++ bs) (s.await p) =
      State.serve bs (((s.attemptsMade as.length tc).await p).receiveEnded p rc m) := by
  obtain ⟨ps, hps, ⟨rfl, q, hq, rfl, rfl⟩ | ⟨rfl, rfl, rfl, rfl⟩ | ⟨rfl, hne, rfl, rfl⟩⟩ := h
  · rw [List.append_assoc, serve_packets hps, List.singleton_append, serve_cons (State.await_op _ _)]
    simp only [State.accept, withReceive_receive, absorb_eos hq, receiveEnded_withReceive, hp,
      Receive.start, List.nil_append]
    cases p <;> simp [State.attemptsMade, State.attempt, State.await, State.receiveEnded, State.ret,
      State.deliver, State.readReceived, State.readLoop, State.setRxbuf, List.replicate_succ']
  · rw [List.singleton_append, serve_cons (State.await_op _ _)]
    simp only [State.accept, hp, Receive.start, Receive.absorb]
    cases p <;> simp [State.attemptsMade, State.attempt, State.await, State.receiveEnded, State.ret,
      State.deliver, State.readReceived, State.readLoop, State.setRxbuf]
  · rw [List.append_assoc, serve_packets hps, List.singleton_append, serve_cons (State.await_op _ _)]
    have : ps.isEmpty = false := by simpa using hne
    simp only [State.accept, withReceive_receive, receiveEnded_withReceive, hp, Receive.start,
      Receive.absorb, this, Bool.and_false]
    cases p <;> simp [State.attemptsMade, State.attempt, State.await, State.receiveEnded, State.ret,
      State.deliver, State.readReceived, State.readLoop, State.setRxbuf, List.replicate_succ']

/-- R46: it makes no difference whether the answers come at once or in two parts, while the operation
still waits after the first part. -/
theorem serve_append {as : List Answer} {s : State} (h : (State.serve as s).op ≠ none)
    (bs : List Answer) : State.serve (as ++ bs) s = State.serve bs (State.serve as s) := by
  induction as generalizing s with
  | nil => rfl
  | cons a as ih =>
    cases ho : s.op with
    | none => simp [State.serve, ho] at h
    | some p =>
      rw [List.cons_append, serve_cons ho, serve_cons ho]
      rw [serve_cons ho] at h
      exact ih h

/-- The end of a receive changes nothing but RXBUF, the operation in progress and the results. -/
theorem receiveEnded_frame (p : Pending) (rc : ReceiveCode) (m : List Byte) (s : State) :
    (s.receiveEnded p rc m).txlog = s.txlog ∧ (s.receiveEnded p rc m).hostIn = s.hostIn ∧
      (s.receiveEnded p rc m).pktIn = s.pktIn ∧ (s.receiveEnded p rc m).attempts = s.attempts ∧
      (s.receiveEnded p rc m).draws = s.draws ∧ (s.receiveEnded p rc m).params = s.params ∧
      (s.receiveEnded p rc m).transportOpen = s.transportOpen := by
  cases p with
  | recv r => simp [State.receiveEnded]
  | read n inc r =>
    simp only [State.receiveEnded, State.readReceived, State.readLoop]
    split_ifs <;> simp

/-- What an answer never changes: everything but RXBUF, the operation in progress, the results and the
record of attempts. -/
theorem accept_frame (p : Pending) (a : Answer) (s : State) :
    (s.accept p a).txlog = s.txlog ∧ (s.accept p a).hostIn = s.hostIn ∧
      (s.accept p a).pktIn = s.pktIn ∧ (s.accept p a).draws = s.draws ∧
      (s.accept p a).params = s.params ∧ (s.accept p a).transportOpen = s.transportOpen := by
  unfold State.accept
  split
  · simp
  · next rc m _ =>
    obtain ⟨h1, h2, h3, -, h4, h5, h6⟩ := receiveEnded_frame p rc m (s.attempt p.receive.tc)
    exact ⟨h1, h2, h3, h4, h5, h6⟩

/-- An operation that still waits has used up the answers. -/
theorem serve_pktIn {as : List Answer} {s : State} (hs : s.pktIn = [])
    (h : (State.serve as s).op ≠ none) : (State.serve as s).pktIn = [] := by
  induction as generalizing s with
  | nil => exact hs
  | cons a as ih =>
    cases ho : s.op with
    | none => simp [State.serve, ho] at h
    | some p =>
      rw [serve_cons ho] at h ⊢
      exact ih ((accept_frame p a s).2.2.1.trans hs) h

/-- R117: while RECV waits and when it ends, RXBUF stays as it is. -/
theorem accept_recv_rxbuf (r : Receive) (a : Answer) (s : State) :
    (s.accept (.recv r) a).rxbuf = s.rxbuf := by
  unfold State.accept
  split <;> simp [State.receiveEnded]

/-- What the transport's answers never change. -/
theorem serve_frame (as : List Answer) (s : State) :
    (State.serve as s).txlog = s.txlog ∧ (State.serve as s).hostIn = s.hostIn ∧
      (State.serve as s).draws = s.draws ∧ (State.serve as s).params = s.params ∧
      (State.serve as s).transportOpen = s.transportOpen := by
  induction as generalizing s with
  | nil => simp [State.serve]
  | cons a as ih =>
    cases ho : s.op with
    | none => simp [State.serve, ho]
    | some p =>
      rw [serve_cons ho]
      obtain ⟨a1, a2, -, a4, a5, a6⟩ := accept_frame p a s
      obtain ⟨i1, i2, i3, i4, i5⟩ := ih (s.accept p a)
      exact ⟨i1.trans a1, i2.trans a2, i3.trans a4, i4.trans a5, i5.trans a6⟩

/-- R161: what the host presents next has no part in what an answer does. -/
theorem accept_hostIn (p : Pending) (a : Answer) (s : State) (h : List HostInput) :
    State.accept p a { s with hostIn := h } = { State.accept p a s with hostIn := h } := by
  unfold State.accept
  split
  · rfl
  · cases p with
    | recv r => rfl
    | read n inc r =>
      simp only [State.receiveEnded, State.readReceived, State.readLoop]
      split_ifs <;> first | rfl | contradiction

theorem serve_hostIn (as : List Answer) (s : State) (h : List HostInput) :
    State.serve as { s with hostIn := h } = { State.serve as s with hostIn := h } := by
  induction as generalizing s with
  | nil => rfl
  | cons a as ih =>
    rcases Option.eq_none_or_eq_some s.op with ho | ⟨p, ho⟩
    · simp [State.serve, ho]
    · rw [serve_cons (s := { s with hostIn := h }) ho, accept_hostIn, ih, serve_cons ho]

/-- R27, D34: TXLOG has no part in it either. -/
theorem accept_txlog (p : Pending) (a : Answer) (s : State) (l : List Packet) :
    State.accept p a { s with txlog := l } = { State.accept p a s with txlog := l } := by
  unfold State.accept
  split
  · rfl
  · cases p with
    | recv r => rfl
    | read n inc r =>
      simp only [State.receiveEnded, State.readReceived, State.readLoop]
      split_ifs <;> first | rfl | contradiction

theorem serve_txlog (as : List Answer) (s : State) (l : List Packet) :
    State.serve as { s with txlog := l } = { State.serve as s with txlog := l } := by
  induction as generalizing s with
  | nil => rfl
  | cons a as ih =>
    rcases Option.eq_none_or_eq_some s.op with ho | ⟨p, ho⟩
    · simp [State.serve, ho]
    · rw [serve_cons (s := { s with txlog := l }) ho, accept_txlog, ih, serve_cons ho]

/-- R25, R117: a RECV in progress neither writes RXBUF nor reads it. -/
theorem serve_recv_rxbuf (as : List Answer) (s : State) (v : List Byte)
    (h : s.op = none ∨ ∃ r, s.op = some (.recv r)) :
    (State.serve as s).rxbuf = s.rxbuf ∧
      State.serve as { s with rxbuf := v } = { State.serve as s with rxbuf := v } := by
  induction as generalizing s with
  | nil => exact ⟨rfl, rfl⟩
  | cons a as ih =>
    rcases h with ho | ⟨r, ho⟩
    · simp [State.serve, ho]
    · have hop : (s.accept (.recv r) a).op = none ∨ ∃ r', (s.accept (.recv r) a).op = some (.recv r') := by
        unfold State.accept
        split
        · exact .inr ⟨_, rfl⟩
        · exact .inl rfl
      have hacc : State.accept (.recv r) a { s with rxbuf := v } =
          { State.accept (.recv r) a s with rxbuf := v } := by
        unfold State.accept
        split <;> rfl
      obtain ⟨h1, h2⟩ := ih (s.accept (.recv r) a) hop
      rw [serve_cons (s := { s with rxbuf := v }) ho, hacc, h2, serve_cons ho]
      exact ⟨h1.trans (accept_recv_rxbuf r a s), rfl⟩

end Sys2Proof.Machine
end

