-- ==== Sys2Proof/Laws/Step.lean ====
section
/-!
SUPPORT. What a step can do while an operation is in progress (R155), and what an instruction can answer.
-/

namespace Sys2Proof.Machine

@[simp] theorem onTransport_open {s t : State} (h : s.transportOpen = true) : s.onTransport t = .next t := by
  simp [State.onTransport, h]

@[simp] theorem onTransport_closed {s t : State} (h : s.transportOpen = false) :
    s.onTransport t = .fault .transportNotOpen := by
  simp [State.onTransport, h]

/-- With no answer at hand the oracle gives one. -/
theorem step_waiting_oracle {s : State} {p : Pending} (ho : s.op = some p) (ht : s.transportOpen = true)
    (hp : s.pktIn = []) :
    step s = .next (s.accept p (Config.pktInDraw s.attempts.length p.receive.tc)) := by
  simp [step, ho, State.resume, hp, ht]

/-- With answers at hand the operation runs on them. -/
theorem step_waiting_listed {s : State} {p : Pending} (ho : s.op = some p) (ht : s.transportOpen = true)
    (hp : s.pktIn ≠ []) : step s = .next s.serveAll := by
  obtain ⟨a, as, h⟩ := List.exists_cons_of_ne_nil hp
  simp [step, ho, State.resume, h, ht]

/-- On a transport that is not open the operation has no step (R163). -/
theorem step_waiting_closed {s : State} {p : Pending} (ho : s.op = some p) (ht : s.transportOpen = false) :
    step s = .fault .transportNotOpen := by
  simp [step, ho, State.resume, ht]

/-- R140: no end of a receive is a fault. -/
@[simp] theorem receiveCode_not_fault (rc : ReceiveCode) : rc.code.isFault = false := by
  cases rc <;> decide

@[simp] theorem readCode_not_fault (inc : Bool) : (readCode inc).isFault = false := by
  cases inc <;> decide

@[simp] theorem short_not_fault : Code.short.isFault = false := by decide

@[simp] theorem ok_not_fault : Code.ok.isFault = false := by decide

/-- The end of a receive answers one result, or none and the operation waits on. -/
theorem receiveEnded_results (p : Pending) (rc : ReceiveCode) (m : List Byte) (s : State) :
    ((s.receiveEnded p rc m).op = none ∧ ∃ r : Result, (s.receiveEnded p rc m).results = s.results ++ [r] ∧
        r.code.isFault = false ∧ r.pe = false ∧ r.info = 0 ∧ (r.code = .nothing → r.data = m ∧ rc = .nothing)) ∨
      ((∃ p', (s.receiveEnded p rc m).op = some p') ∧ (s.receiveEnded p rc m).results = s.results) := by
  cases p with
  | recv r =>
    refine .inl ⟨rfl, _, rfl, receiveCode_not_fault rc, rfl, rfl, fun h => ⟨rfl, ?_⟩⟩
    cases rc <;> first | rfl | cases h
  | read n inc r =>
    simp only [State.receiveEnded, State.readReceived, State.readLoop]
    split_ifs with h1 h2 h3
    · refine .inl ⟨rfl, _, rfl, readCode_not_fault _, rfl, rfl, fun h => ?_⟩
      cases hi : (inc || rc == .incomplete) <;> simp [readCode, hi] at h
    · exact .inl ⟨rfl, _, rfl, short_not_fault, rfl, rfl, fun h => by cases h⟩
    · exact .inr ⟨⟨_, rfl⟩, rfl⟩
    · refine .inl ⟨rfl, _, rfl, readCode_not_fault _, rfl, rfl, fun h => ?_⟩
      cases hi : (inc || rc == .incomplete) <;> simp [readCode, hi] at h

/-! ### What an instruction can answer -/

/-- R140: a fault's result is legal. -/
theorem fault_legal (c : Code) (k : Nat)
    (hk : k ≠ 0 → c = .charRange ∨ c = .parity) :
    Result.Legal { code := c, data := [], pe := false, info := k } where
  fault _ := ⟨rfl, rfl⟩
  info := hk
  pe h := by cases h
  nothing _ := rfl

/-- R140: the result of a completed operation is legal. -/
theorem ok_legal (d : List Byte) (b : Bool) :
    Result.Legal { code := .ok, data := d, pe := b, info := 0 } where
  fault h := by simp at h
  info h := absurd rfl h
  pe _ := rfl
  nothing h := by cases h

/-- What UNPACK, PACK, HDRDEC, FLUSH and a rejected operand answer: one result and nothing else. -/
structure AnswersOnly (i : Instr) (s t : State) (r : Result) : Prop where
  state : t = s.deliver r
  legal : r.Legal
  pe : r.pe = true → ∃ tt d, i = .unpack tt d
  fault : r.code.isFault = true → WellFormed i = true →
    (r.code = .charRange ∧ ∃ tt d, i = .pack tt d) ∨
      (r.code = .parity ∧ s.params.strictParity = true ∧ ∃ tt d, i = .unpack tt d)

/-- How a READ begins: n = 0 receives once; n > 0 looks at RXBUF first. -/
def State.readStart (n : Nat) (s : State) : State :=
  if n = 0 then s.await (.read 0 false (Receive.start .short)) else s.readLoop n false

/-- R112: SEND, in one equation. -/
theorem exec_send (m : List Byte) (s : State) :
    exec (.send m) s = s.onTransport ((s.sendAll m).ret .ok [] false) := rfl

/-- R116: RECV without an operand, in one equation. -/
theorem exec_recv (c : TimeoutClass) (s : State) :
    exec (.recv c []) s = s.onTransport (s.await (.recv (Receive.start c))).serveAll := by
  simp [exec, execRecv]

/-- R120: READ without a byte operand, in one equation. -/
theorem exec_read (n : Nat) (s : State) :
    exec (.read n []) s = s.onTransport (s.readStart n).serveAll := by
  by_cases hn : n = 0
  · subst hn; simp [exec, execRead, State.readStart]
  · simp [exec, execRead, State.readStart, hn]

/-- R144: RECV, READ and FLUSH with an operand. -/
theorem exec_badOperand {d : List Byte} (hd : d ≠ []) (s : State) :
    (∀ c, exec (.recv c d) s = .next (s.raiseFault .badOperand 0)) ∧
      (∀ n, exec (.read n d) s = .next (s.raiseFault .badOperand 0)) ∧
      exec (.flush d) s = .next (s.raiseFault .badOperand 0) := by
  simp [exec, execRecv, execRead, execFlush, hd]

/-- R163, I19: when `exec` stops, and on what: SEND, or RECV or READ without an operand, with the transport
not open. -/
theorem exec_fault {i : Instr} {s : State} {f : Fault} (h : exec i s = .fault f) :
    f = .transportNotOpen ∧ s.transportOpen = false ∧
      ((∃ m, i = .send m) ∨ (∃ c, i = .recv c []) ∨ ∃ n, i = .read n []) := by
  have stops : ∀ {t : State}, s.onTransport t = .fault f →
      f = .transportNotOpen ∧ s.transportOpen = false := by
    intro t ht
    unfold State.onTransport at ht
    split at ht
    · cases ht
    · next hc => exact ⟨by cases f; rfl, by simpa using hc⟩
  cases i with
  | unpack tt d => simp only [exec, execUnpack] at h; split at h <;> (try split at h) <;> cases h
  | pack tt d => simp only [exec, execPack] at h; split at h <;> (try split at h) <;> cases h
  | hdrdec d => simp only [exec, execHdrdec] at h; split at h <;> cases h
  | flush d => simp only [exec, execFlush] at h; split at h <;> cases h
  | send d => exact ⟨(stops h).1, (stops h).2, .inl ⟨d, rfl⟩⟩
  | recv c d =>
    by_cases hd : d = []
    · subst hd
      rw [exec_recv] at h
      exact ⟨(stops h).1, (stops h).2, .inr (.inl ⟨c, rfl⟩)⟩
    · rw [(exec_badOperand hd s).1] at h; cases h
  | read n d =>
    by_cases hd : d = []
    · subst hd
      rw [exec_read] at h
      exact ⟨(stops h).1, (stops h).2, .inr (.inr ⟨n, rfl⟩)⟩
    · rw [(exec_badOperand hd s).2.1] at h; cases h

/-- A group whose parity is wrong under STRICT_PARITY is the only reason UNPACK's loop ends early. -/
theorem unpackGroups_strict {P : TrackParams} {strict : Bool} {Gs : List Nat} {g e : Nat}
    (h : unpackGroups P strict Gs g = .error e) : strict = true := by
  induction Gs generalizing g e with
  | nil => cases h
  | cons G Gs ih =>
    rw [unpackGroups] at h
    split at h
    · cases h
    · split at h
      · next hs => exact (Bool.and_eq_true_iff.1 hs).1
      · cases hu : unpackGroups P strict Gs (g + 1) with
        | error k => exact ih (e := k) hu
        | ok x => rw [hu] at h; cases h

/-- What an instruction that answers a next state did. -/
theorem exec_cases {i : Instr} {s t : State} (h : exec i s = .next t) :
    (∃ r, AnswersOnly i s t r) ∨
    (∃ m, i = .send m ∧ s.transportOpen = true ∧ t = (s.sendAll m).ret .ok [] false) ∨
    (∃ c, i = .recv c [] ∧ s.transportOpen = true ∧ t = (s.await (.recv (Receive.start c))).serveAll) ∨
    (∃ n, i = .read n [] ∧ s.transportOpen = true ∧ t = (s.readStart n).serveAll) := by
  have opened {u : State} (h : s.onTransport u = .next t) : s.transportOpen = true ∧ t = u := by
    cases ho : s.transportOpen <;> simp_all
  have ok {d : List Byte} {b : Bool} (hb : b = true → ∃ tt d, i = .unpack tt d)
      (h : (Host.Outcome.next : State → Host.Outcome State Fault Refusal) (s.ret .ok d b) = .next t) : ∃ r, AnswersOnly i s t r := by
    cases h
    exact ⟨_, rfl, ok_legal d b, hb, fun h => by simp at h⟩
  have fault {c : Code} {k : Nat} (hk : k ≠ 0 → c = .charRange ∨ c = .parity)
      (hw : WellFormed i = true → (c = .charRange ∧ ∃ tt d, i = .pack tt d) ∨
        (c = .parity ∧ s.params.strictParity = true ∧ ∃ tt d, i = .unpack tt d))
      (h : (Host.Outcome.next : State → Host.Outcome State Fault Refusal) (s.raiseFault c k) = .next t) : ∃ r, AnswersOnly i s t r := by
    cases h
    exact ⟨_, rfl, fault_legal c k hk, (fun h => by cases h), fun _ => hw⟩
  cases i with
  | unpack tt d =>
    refine .inl ?_
    simp only [exec, execUnpack] at h
    split at h
    · next ht =>
      exact fault (by simp) (by simp [WellFormed, Instr.trackLegal, tdp_none.1 ht]) h
    · split at h
      · next hu =>
        exact fault (by simp) (fun _ => .inr ⟨rfl, unpackGroups_strict hu, _, _, rfl⟩) h
      · exact ok (fun _ => ⟨_, _, rfl⟩) h
  | pack tt d =>
    refine .inl ?_
    simp only [exec, execPack] at h
    split at h
    · next ht =>
      exact fault (by simp) (by simp [WellFormed, Instr.trackLegal, tdp_none.1 ht]) h
    · split at h
      · exact fault (by simp) (fun _ => .inl ⟨rfl, _, _, rfl⟩) h
      · exact ok (by simp) h
  | hdrdec d =>
    refine .inl ?_
    simp only [exec, execHdrdec] at h
    split at h
    · exact ok (by simp) h
    · next hd =>
      refine fault (by simp) (fun hw => ?_) h
      simp only [WellFormed, Instr.trackLegal, Instr.shapeLegal, Bool.true_and, beq_iff_eq,
        List.length_eq_one_iff] at hw
      obtain ⟨x, rfl⟩ := hw
      exact absurd rfl (hd x)
  | send m => exact .inr (.inl ⟨m, rfl, opened h⟩)
  | recv c d =>
    simp only [exec, execRecv] at h
    split at h
    · next hd =>
      exact .inl (fault (by simp) (by simp [WellFormed, Instr.trackLegal, Instr.shapeLegal, hd]) h)
    · next hd =>
      obtain rfl : d = [] := by simpa using hd
      exact .inr (.inr (.inl ⟨c, rfl, opened h⟩))
  | read n d =>
    simp only [exec, execRead] at h
    split at h
    · next hd =>
      exact .inl (fault (by simp) (by simp [WellFormed, Instr.trackLegal, Instr.shapeLegal, hd]) h)
    · next hd =>
      obtain rfl : d = [] := by simpa using hd
      refine .inr (.inr (.inr ⟨n, rfl, ?_⟩))
      unfold State.readStart
      split at h
      · next hn => subst hn; simpa using opened h
      · next hn => simpa [hn] using opened h
  | flush d =>
    refine .inl ?_
    simp only [exec, execFlush] at h
    split at h
    · next hd =>
      exact fault (by simp) (by simp [WellFormed, Instr.trackLegal, Instr.shapeLegal, hd]) h
    · exact ok (by simp) h

/-! ### What a step can do -/

/-- What a step that answers a next state did: the operation in progress went on, the block waited, or it
took a RESET or a command. -/
theorem step_cases {s t : State} (h : step s = .next t) :
    (∃ p, s.op = some p ∧ s.transportOpen = true ∧
      ((s.pktIn = [] ∧ t = s.accept p (Config.pktInDraw s.attempts.length p.receive.tc)) ∨
        (s.pktIn ≠ [] ∧ t = s.serveAll))) ∨
    (s.op = none ∧
      ((s.hostIn = [] ∧ t = s) ∨
       (∃ rest, s.hostIn = .reset :: rest ∧ t = { s with hostIn := rest, rxbuf := [] }) ∨
       (∃ c rest, s.hostIn = .command c :: rest ∧
          ((decode c = .error .badOpcode ∧ t = State.raiseFault .badOpcode 0 { s with hostIn := rest }) ∨
            ∃ i, decode c = .ok i ∧ exec i { s with hostIn := rest } = .next t)))) := by
  rcases Option.eq_none_or_eq_some s.op with ho | ⟨p, ho⟩
  · refine .inr ⟨ho, ?_⟩
    simp only [step, ho] at h
    split at h
    · next hh => cases h; exact .inl ⟨hh, rfl⟩
    · next rest hh => cases h; exact .inr (.inl ⟨_, hh, by simp [State.resetInput, ho]⟩)
    · next c rest hh =>
      refine .inr (.inr ⟨c, rest, hh, ?_⟩)
      unfold runCommand at h
      split at h
      · next hd => cases h; exact .inl ⟨hd, rfl⟩
      · next i hd => exact .inr ⟨i, hd, by rw [← h, ho]⟩
  · refine .inl ⟨p, ho, ?_⟩
    cases ht : s.transportOpen with
    | false => rw [step_waiting_closed ho ht] at h; cases h
    | true =>
      by_cases hp : s.pktIn = []
      · rw [step_waiting_oracle ho ht hp] at h; cases h; exact ⟨rfl, .inl ⟨hp, rfl⟩⟩
      · rw [step_waiting_listed ho ht hp] at h; cases h; exact ⟨rfl, .inr ⟨hp, rfl⟩⟩

/-- An answer ends the operation with one result that is no fault, or leaves it waiting with none. -/
theorem accept_results (p : Pending) (a : Answer) (s : State) :
    ((s.accept p a).op ≠ none ∧ (s.accept p a).results = s.results) ∨
    ((s.accept p a).op = none ∧
      ∃ r, (s.accept p a).results = s.results ++ [r] ∧ r.code.isFault = false ∧ r.pe = false) := by
  unfold State.accept
  split
  · exact .inl ⟨by simp, rfl⟩
  next rc m _ =>
    rcases receiveEnded_results p rc m (s.attempt p.receive.tc) with ⟨h1, r, h2, h3, h4, -⟩ | ⟨⟨p', h1⟩, h2⟩
    · exact .inr ⟨h1, r, h2, h3, h4⟩
    · exact .inl ⟨by simp [h1], h2⟩

/-- An operation answers at most one result, and no fault, on the transport's answers. -/
theorem serve_results (as : List Answer) (s : State) :
    (State.serve as s).results = s.results ∨
      ∃ r, (State.serve as s).results = s.results ++ [r] ∧ r.code.isFault = false ∧ r.pe = false := by
  induction as generalizing s with
  | nil => exact .inl rfl
  | cons a as ih =>
    rcases Option.eq_none_or_eq_some s.op with ho | ⟨p, ho⟩
    · simp [State.serve, ho]
    · rw [serve_cons ho]
      rcases accept_results p a s with ⟨h1, h2⟩ | ⟨h1, r, h2⟩
      · rw [← h2]; exact ih _
      · right
        refine ⟨r, ?_, h2.2⟩
        cases as with
        | nil => exact h2.1
        | cons b as => simp only [State.serve, h1]; exact h2.1

/-- Attempts are only ever added. -/
theorem serve_attempts (as : List Answer) (s : State) : s.attempts <+: (State.serve as s).attempts := by
  induction as generalizing s with
  | nil => exact List.prefix_rfl
  | cons a as ih =>
    rcases Option.eq_none_or_eq_some s.op with ho | ⟨p, ho⟩
    · simp [State.serve, ho]
    · rw [serve_cons ho]
      refine List.IsPrefix.trans ?_ (ih _)
      unfold State.accept
      split
      · simp
      · rw [(receiveEnded_frame _ _ _ _).2.2.2.1]; simp

/-- Beginning a READ changes RXBUF, the operation in progress and the results only. -/
theorem readStart_frame (n : Nat) (s : State) :
    (s.readStart n).txlog = s.txlog ∧ (s.readStart n).hostIn = s.hostIn ∧
      (s.readStart n).draws = s.draws ∧ (s.readStart n).params = s.params ∧
      (s.readStart n).transportOpen = s.transportOpen ∧ (s.readStart n).attempts = s.attempts ∧
      (s.readStart n).pktIn = s.pktIn := by
  unfold State.readStart State.readLoop
  split_ifs <;> simp

theorem readStart_results (n : Nat) (s : State) :
    ((s.readStart n).op ≠ none ∧ (s.readStart n).results = s.results) ∨
    ((s.readStart n).op = none ∧
      ∃ r, (s.readStart n).results = s.results ++ [r] ∧ r.code.isFault = false ∧ r.pe = false) := by
  unfold State.readStart State.readLoop
  split_ifs <;> simp

theorem readAll_results (n : Nat) (s : State) :
    (s.readStart n).serveAll.results = s.results ∨
      ∃ r, (s.readStart n).serveAll.results = s.results ++ [r] ∧ r.code.isFault = false ∧ r.pe = false := by
  rcases readStart_results n s with ⟨h1, h2⟩ | ⟨h1, h2⟩
  · rw [← h2]; exact serve_results _ {s.readStart n with pktIn := []}
  · rw [State.serveAll, serve_idle (by exact h1) rfl]
    exact .inr h2

end Sys2Proof.Machine
end

