-- ==== Sys2Proof/Laws/Read.lean ====
section
/-!
SUPPORT. What READ n for n > 0 does over the receives it goes on after (R120, R122).
-/

namespace Sys2Proof.Machine

/-- R120: the head of READ's loop does not look at the operation in progress. -/
theorem readLoop_await (n : Nat) (inc : Bool) (p : Pending) (s : State) :
    (s.await p).readLoop n inc = s.readLoop n inc := by
  by_cases h : s.rxbuf.length < n <;>
    simp [State.readLoop, h, State.await, State.ret, State.deliver, State.setRxbuf]

/-- R120: READ n for n > 0 runs its loop on the answers PKT_IN holds. -/
theorem readStart_pos {n : Nat} (hn : 0 < n) (s : State) :
    (s.readStart n).serveAll = State.serve s.pktIn (State.readLoop n false { s with pktIn := [] }) := by
  simp only [State.readStart, if_neg (show ¬ n = 0 by omega), State.serveAll, State.readLoop]
  split_ifs <;> rfl

/-- The state after the receives `rs` of a READ n: their bytes are in RXBUF, their attempts made. -/
def State.gained (rs : List Received) (s : State) : State :=
  (s.setRxbuf (s.rxbuf ++ allBytes rs)).attemptsMade (allAnswers rs).length .long

/-- R120, R122: READ's loop over the receives it goes on after. -/
theorem serve_readGoesOn {n : Nat} (hn : 0 < n) {rs : List Received} {s : State}
    (h : ReadGoesOn s n rs) (inc : Bool) (bs : List Answer) :
    State.serve (allAnswers rs ++ bs) (s.readLoop n inc) =
      State.serve bs ((s.gained rs).readLoop n (inc || anyIncomplete rs)) := by
  induction rs generalizing s inc with
  | nil => simp [State.gained, allAnswers, allBytes, anyIncomplete, State.setRxbuf]
  | cons r rs ih =>
    have h0 : s.rxbuf.length < n := by simpa [allBytes] using h.wanted 0 (by simp)
    let p : Pending := .read n inc (Receive.start .long)
    have hl : s.readLoop n inc = s.await p := by simp [State.readLoop, h0, p]
    have hq : ¬ (r.rc = .nothing ∧ s.params.readTimeoutPolicy = .returnShort) :=
      fun ⟨a, b⟩ => h.quiet b r (by simp) a
    have hr : ((s.attemptsMade r.answers.length .long).await p).receiveEnded p r.rc r.bytes =
        ((s.attemptsMade r.answers.length .long).setRxbuf (s.rxbuf ++ r.bytes)).readLoop n
          (inc || r.rc == .incomplete) := by
      have hq' : ¬ (r.rc = .nothing ∧
          ((s.attemptsMade r.answers.length .long).await p).params.readTimeoutPolicy = .returnShort) := hq
      simp only [State.receiveEnded, p, State.readReceived, if_neg (show ¬ n = 0 by omega), if_neg hq']
      exact readLoop_await n _ p ((s.attemptsMade r.answers.length .long).setRxbuf (s.rxbuf ++ r.bytes))
    rw [allAnswers_cons, List.append_assoc, hl, serve_receiveEnds (h.ended r (by simp)) rfl, hr, ih]
    · congr 1
      simp only [State.gained, State.setRxbuf, State.attemptsMade, allAnswers_cons, allBytes_cons,
        List.append_assoc, List.replicate_add, List.length_append, anyIncomplete, List.any_cons,
        Bool.or_assoc]
    · refine ⟨fun q hq => h.ended q (by simp [hq]), fun j hj => ?_, fun hp q hq => h.quiet hp q (by simp [hq])⟩
      have := h.wanted (j + 1) (by simp; omega)
      simpa [State.setRxbuf, Nat.add_assoc] using this

end Sys2Proof.Machine
end

