-- ==== Sys2Proof/Laws/Send.lean ====
section
/-!
SUPPORT. The packet header (R72), the packets SEND builds (R112), and what SEND's loop does.
-/

namespace Sys2Proof.Machine

/-- R72: decoding the header that was encoded gives its fields back. -/
theorem hdr_fields (sos eos : Bool) {len : Nat} (h : len ≤ 63) :
    hdrSos (hdr sos eos len) = sos ∧ hdrEos (hdr sos eos len) = eos ∧ hdrLen (hdr sos eos len) = len := by
  have all : ∀ n < 64, ∀ a b : Bool,
      hdrSos (hdr a b n) = a ∧ hdrEos (hdr a b n) = b ∧ hdrLen (hdr a b n) = n := by decide
  exact all len (by omega) sos eos

@[simp] theorem framePacket_header (h : Byte) (c : List Byte) (pad : Nat → Byte) :
    (framePacket h c pad).header = h := rfl

/-- R43: the payload of a packet is the chunk put into it, whatever the padding. -/
theorem framePacket_payload {h : Byte} {c : List Byte} (pad : Nat → Byte) (hc : c.length ≤ 63)
    (hl : hdrLen h = c.length) : (framePacket h c pad).payload = c := by
  rw [Packet.payload, framePacket_header, hl]
  simp [framePacket, List.take_of_length_le hc]

theorem chunk_length (m : List Byte) (k : Nat) : (chunk m k).length = min 63 (m.length - 63 * k) := by
  simp [chunk]

theorem chunk_length_le (m : List Byte) (k : Nat) : (chunk m k).length ≤ 63 := by
  rw [chunk_length]; omega

/-- The chunks of a message, one after the other, are the message (R113). -/
theorem chunks_flatten (m : List Byte) (K : Nat) :
    ((List.range K).map (chunk m)).flatten = m.take (63 * K) := by
  induction K with
  | zero => simp
  | succ K ih =>
    rw [List.range_succ, List.map_append, List.flatten_append, ih, Nat.mul_succ, List.take_add]
    simp [chunk]

@[simp] theorem sendPacket_header (m : List Byte) (d k : Nat) :
    (sendPacket m d k).header = sendHeader m k := rfl

@[simp] theorem sendPacket_payload (m : List Byte) (d k : Nat) : (sendPacket m d k).payload = chunk m k :=
  framePacket_payload _ (chunk_length_le m k) (hdr_fields _ _ (chunk_length_le m k)).2.2

/-- The packets of SEND's first `K` turns, from the draw `d` on. -/
def sentPackets (m : List Byte) (d : Nat) : Nat → List Packet
  | 0 => []
  | K + 1 => sentPackets m d K ++ [sendPacket m (d + (63 * K - (m.take (63 * K)).length)) K]

@[simp] theorem sentPackets_length (m : List Byte) (d K : Nat) : (sentPackets m d K).length = K := by
  induction K with
  | zero => rfl
  | succ K ih => simp [sentPackets, ih]

/-- R112: packet `k` of those SEND emitted carries chunk `k` under header `k`. -/
theorem sentPackets_get {m : List Byte} {d K k : Nat} {p : Packet} (h : (sentPackets m d K)[k]? = some p) :
    k < K ∧ p.header = sendHeader m k ∧ p.payload = chunk m k := by
  induction K with
  | zero => simp [sentPackets] at h
  | succ K ih =>
    rw [sentPackets, List.getElem?_append] at h
    split at h
    · next hk => exact ⟨by simp at hk; omega, (ih h).2⟩
    · next hk =>
      simp only [sentPackets_length, Nat.not_lt] at hk h
      obtain ⟨hlt, hp⟩ := List.getElem?_eq_some_iff.1 h
      simp only [List.length_singleton] at hlt
      obtain rfl : k = K := by omega
      subst_vars
      simp

/-- R112: what SEND's loop does after `K` turns, and that it does nothing else. -/
theorem sendChunks_eq (m : List Byte) (s : State) (K : Nat) :
    (List.range K).foldl (State.sendChunk m) s =
      { s with
        txlog := s.txlog ++ sentPackets m s.draws K
        draws := s.draws + (63 * K - (m.take (63 * K)).length) } := by
  induction K with
  | zero => simp [sentPackets]
  | succ K ih =>
    rw [List.range_succ, List.foldl_append, ih]
    simp only [List.foldl_cons, List.foldl_nil, State.sendChunk, State.pktOut, State.drawn, sentPackets,
      List.append_assoc, chunk_length, List.length_take]
    congr 1
    omega

/-- R113, R114: the packets of a whole SEND carry its message. -/
theorem sentPackets_carries (m : List Byte) (d : Nat) :
    Carries (sentPackets m d (packetCount m)) m where
  count := by simp [packetCount]
  payload k p h := (sentPackets_get h).2.2
  header k p h := by
    obtain ⟨hk, hh, hp⟩ := sentPackets_get h
    rw [hh, hp]
    obtain ⟨h1, h2, h3⟩ := hdr_fields (k == 0) (k == packetCount m - 1) (chunk_length_le m k)
    refine ⟨h1.trans ?_, h2.trans ?_, h3⟩
    · simp [beq_eq_decide]
    · rw [sentPackets_length, beq_eq_decide, decide_eq_decide]
      omega

theorem packetCount_covers (m : List Byte) : m.length ≤ 63 * packetCount m := by
  unfold packetCount; omega

/-- R112: SEND's loop as a whole. -/
theorem sendAll_eq (m : List Byte) (s : State) :
    s.sendAll m =
      { s with
        txlog := s.txlog ++ sentPackets m s.draws (packetCount m)
        draws := s.draws + (63 * packetCount m - m.length) } := by
  rw [State.sendAll, sendChunks_eq, List.take_of_length_le (packetCount_covers m)]

/-- R44: packets that carry a message hold its bytes in order. -/
theorem carries_payloads {ps : List Packet} {m : List Byte} (h : Carries ps m) : payloads ps = m := by
  have hmap : ps.map Packet.payload = (List.range ps.length).map (chunk m) := by
    refine List.ext_getElem? fun k => ?_
    rw [List.getElem?_map, List.getElem?_map]
    rcases hk : ps[k]? with _ | p
    · rw [List.getElem?_eq_none_iff] at hk
      rw [List.getElem?_eq_none (by simpa using hk)]
      rfl
    · have hlt : k < ps.length := (List.getElem?_eq_some_iff.1 hk).1
      rw [List.getElem?_range hlt]
      simp [h.payload k p hk, chunk]
  rw [payloads, hmap, chunks_flatten, List.take_of_length_le]
  rw [h.count]
  omega

/-- R119: packets that carry a message are the answers of one receive that ends with the message. -/
theorem carries_receiveEnds {ps : List Packet} {m : List Byte} (h : Carries ps m) :
    ReceiveEnds (ps.map .packet) .ok m := by
  have hne : ps ≠ [] := by
    rintro rfl
    have := h.count
    simp at this
    omega
  have hget : ∀ k (hk : k < ps.length), ps[k].eos = decide (k + 1 = ps.length) := fun k hk =>
    (h.header k ps[k] (List.getElem?_eq_getElem hk)).2.1
  have hlen : 0 < ps.length := List.length_pos_of_ne_nil hne
  refine ⟨ps.dropLast, ?_, .inl ⟨rfl, ps.getLast hne, ?_, ?_, ?_⟩⟩
  · intro p hp
    obtain ⟨k, hk, rfl⟩ := List.getElem_of_mem hp
    rw [List.length_dropLast] at hk
    rw [List.getElem_dropLast, hget k (by omega)]
    simp
    omega
  · rw [List.getLast_eq_getElem, hget _ (by omega)]
    simp
    omega
  · rw [← List.map_singleton, ← List.map_append, List.dropLast_append_getLast]
  · have : payloads ps = payloads ps.dropLast ++ (ps.getLast hne).payload := by
      conv_lhs => rw [← List.dropLast_append_getLast hne]
      simp [payloads]
    rw [← this, carries_payloads h]

end Sys2Proof.Machine
end

