-- ==== Sys2Proof/Tests/Slice0.lean ====
section
/-!
SUPPORT. The model's own tests: the well-formedness smoke test, op words written out from the spec,
one step on vectors of spec/95_test_vectors.md, and for every statement with hypotheses a witness that
meets them.
-/

open Sys2Proof Sys2Proof.Machine

namespace Sys2Proof.Tests

/-! ### Well-formed and ill-formed instructions -/

theorem test_wellFormed_accepts :
    [Instr.unpack 1#2 [], .unpack 3#2 [1#8], .pack 2#2 [], .hdrdec [0#8], .send [], .recv .short [],
      .read 5 [], .flush []].all WellFormed = true := by decide

/-- R61 step 2, R141: the track field 0b00. -/
theorem test_wellFormed_refuses_track :
    WellFormed (.unpack 0#2 [1#8]) = false ∧ WellFormed (.pack 0#2 [0x31#8]) = false := by decide

/-- R61 step 3, R76: the operand shapes. -/
theorem test_wellFormed_refuses_shape :
    WellFormed (.hdrdec []) = false ∧ WellFormed (.hdrdec [0#8, 0#8]) = false ∧
      WellFormed (.recv .long [0#8]) = false ∧ WellFormed (.read 1 [0#8]) = false ∧
      WellFormed (.flush [0#8]) = false := by decide

/-! ### Decoding: R62 to R69, op words bit by bit -/

theorem test_decode_unpack :
    decode ⟨0b00010001#8, [0x61#8], 0⟩ = .ok (.unpack 1#2 [0x61#8]) ∧
      decode ⟨0b00010010#8, [], 0⟩ = .ok (.unpack 2#2 []) ∧
      decode ⟨0b00010011#8, [], 0⟩ = .ok (.unpack 3#2 []) ∧
      decode ⟨0b00010000#8, [], 0⟩ = .ok (.unpack 0#2 []) := ⟨rfl, rfl, rfl, rfl⟩

theorem test_decode_pack :
    decode ⟨0b00100001#8, [0x41#8], 0⟩ = .ok (.pack 1#2 [0x41#8]) ∧
      decode ⟨0b00100010#8, [], 0⟩ = .ok (.pack 2#2 []) ∧
      decode ⟨0b00100011#8, [], 0⟩ = .ok (.pack 3#2 []) := ⟨rfl, rfl, rfl⟩

theorem test_decode_hdrdec : decode ⟨0b00110000#8, [0xC6#8], 3⟩ = .ok (.hdrdec [0xC6#8]) := rfl

theorem test_decode_send : decode ⟨0b01000000#8, [0xAA#8], 3⟩ = .ok (.send [0xAA#8]) := rfl

theorem test_decode_recv :
    decode ⟨0b01010000#8, [], 3⟩ = .ok (.recv .short []) ∧
      decode ⟨0b01010001#8, [], 3⟩ = .ok (.recv .long []) := ⟨rfl, rfl⟩

theorem test_decode_read : decode ⟨0b01100000#8, [], 10⟩ = .ok (.read 10 []) := rfl

theorem test_decode_flush : decode ⟨0b01110000#8, [], 10⟩ = .ok (.flush []) := rfl

/-- R69, V-E1 to V-E7, and the words at the edges of the ranges R69 names. -/
theorem test_decode_rejects :
    [0x00#8, 0x0F#8, 0x14#8, 0x31#8, 0x42#8, 0x44#8, 0x52#8, 0x53#8, 0x63#8, 0x73#8, 0x80#8, 0xFF#8].all
      (fun w => (match decode ⟨w, [], 0⟩ with | .error .badOpcode => true | .ok _ => false)) = true := by
  decide

/-- Exactly 14 op words are assigned: 4 each for UNPACK and PACK, 2 for RECV, 1 for each other row. -/
theorem test_decode_count :
    ((List.range 256).filter fun w =>
      (match decode ⟨BitVec.ofNat 8 w, [], 0⟩ with | .ok _ => true | .error _ => false)) =
      [0x10, 0x11, 0x12, 0x13, 0x20, 0x21, 0x22, 0x23, 0x30, 0x40, 0x50, 0x51, 0x60, 0x70] := by decide

theorem test_decodeTableWord :
    decodeTableWord 8 0x12 = some (.unpack 2#2 []) ∧ decodeTableWord 8 0x30 = some (.hdrdec [0#8]) ∧
      decodeTableWord 8 0x51 = some (.recv .long []) ∧ decodeTableWord 8 0x14 = none ∧
      decodeTableWord 16 0xC630 = some (.hdrdec [0xC6#8]) := by decide

theorem test_withFetchWord :
    step (State.reset.withFetchWord 8 0x70) = exec (.flush []) State.reset ∧
      step (State.reset.withFetchWord 8 0x30) = exec (.hdrdec [0#8]) State.reset := ⟨rfl, rfl⟩

/-! ### One step on a small state -/

/-- The reset state with a command presented, RXBUF and the transport's answers as given. -/
def at_ (rxbuf : List Byte) (pktIn : List Answer) (op : Byte) (data : List Byte) (n : Nat) : State :=
  { State.reset with rxbuf := rxbuf, pktIn := pktIn, hostIn := [.command ⟨op, data, n⟩] }

/-- A packet with header `h`, chunk `c` and 0xEE for padding. -/
def pk (h : Byte) (c : List Byte) : Packet := framePacket h c fun _ => 0xEE#8

/-- What a step answers, with RXBUF and the answers the transport still holds. -/
def after (s : State) : Option (List Result × List Byte × List Answer) :=
  match step s with
  | .next t => some (t.results, t.rxbuf, t.pktIn)
  | _ => none

def ok (data : List Byte) (pe : Bool := false) : Result := { code := .ok, data := data, pe := pe, info := 0 }

/-- V-U2. -/
theorem test_unpack : after (at_ [] [] 0x12#8 [0x41#8, 0x4C#8, 0x02#8] 0) =
    some ([ok [0x31#8, 0x32#8, 0x33#8, 0x34#8]], [], []) := by decide

/-- V-U18: the parity bit of group 0 is wrong, and one trailing bit is ignored. -/
theorem test_unpack_pe : after (at_ [] [] 0x11#8 [0x41#8] 0) = some ([ok [0x21#8] true], [], []) := by decide

/-- V-P1. -/
theorem test_pack : after (at_ [] [] 0x21#8 [0x41#8, 0x42#8, 0x43#8] 0) =
    some ([ok [0x61#8, 0xF1#8, 0x08#8]], [], []) := by decide

/-- V-P18. -/
theorem test_pack_range : after (at_ [] [] 0x22#8 [0x31#8, 0x80#8, 0x2F#8] 0) =
    some ([{ code := .charRange, data := [], pe := false, info := 1 }], [], []) := by decide

/-- R110's worked example. -/
theorem test_hdrdec : after (at_ [] [] 0x30#8 [0xC6#8] 0) = some ([ok [1#8, 1#8, 6#8]], [], []) := by decide

/-- V-S5: headers and payloads of a message of 64 bytes. -/
theorem test_send :
    (match step (at_ [] [] 0x40#8 (List.replicate 64 0x5A#8) 0) with
      | .next t => some (t.txlog.map fun p => (p.header, p.payload), t.results, t.draws)
      | _ => none) =
    some ([(0xBF#8, List.replicate 63 0x5A#8), (0x41#8, [0x5A#8])], [ok []], 62) := by decide

/-- V-R6. -/
theorem test_recv :
    after (at_ [] [.packet (pk 0xC2#8 [0x41#8, 0x42#8]), .packet (pk 0xC1#8 [0x43#8])] 0x50#8 [] 0) =
      some ([ok [0x41#8, 0x42#8]], [], [.packet (pk 0xC1#8 [0x43#8])]) := by decide

/-- V-R3 with 2 bytes for 63. -/
theorem test_recv_incomplete : after (at_ [9#8] [.packet (pk 0x82#8 [1#8, 2#8]), .timeout] 0x51#8 [] 0) =
    some ([{ code := .incomplete, data := [1#8, 2#8], pe := false, info := 0 }], [9#8], []) := by decide

/-- V-D1. -/
theorem test_read :
    after (at_ [] [.packet (pk 0xC6#8 [0x31#8, 0x32#8, 0x33#8, 0x34#8, 0x35#8, 0x36#8])] 0x60#8 [] 2) =
      some ([ok [0x31#8, 0x32#8]], [0x33#8, 0x34#8, 0x35#8, 0x36#8], []) := by decide

/-- V-D8: SHORT, with what is buffered. -/
theorem test_read_short :
    after (at_ [] [.packet (pk 0xC3#8 [0x61#8, 0x62#8, 0x63#8]), .timeout] 0x60#8 [] 10) =
      some ([{ code := .short, data := [0x61#8, 0x62#8, 0x63#8], pe := false, info := 0 }], [], []) := by
  decide

/-- V-F1. -/
theorem test_flush : after (at_ [0x35#8, 0x36#8] [.timeout] 0x70#8 [] 0) =
    some ([ok []], [0x35#8, 0x36#8], [.timeout]) := by decide

/-- V-F2. -/
theorem test_flush_operand : after (at_ [0x35#8] [] 0x70#8 [0#8] 0) =
    some ([{ code := .badOperand, data := [], pe := false, info := 0 }], [0x35#8], []) := by decide

/-- V-E6: BAD_OPCODE outranks BAD_OPERAND. -/
theorem test_badOpcode_first : after (at_ [] [] 0x31#8 [0xC6#8, 0#8] 0) =
    some ([{ code := .badOpcode, data := [], pe := false, info := 0 }], [], []) := by decide

/-- V-E8. -/
theorem test_reset : after { State.reset with rxbuf := [0x35#8, 0x36#8], hostIn := [.reset] } =
    some ([], [], []) := by decide

/-! ### Witnesses: the hypotheses of every statement can be met -/

/-- A packet that carries a middle or first chunk, and one that ends a message. -/
def more : Packet := pk 0x02#8 [1#8, 2#8]

def last : Packet := pk 0x41#8 [3#8]

/-- READ 5 with one byte buffered, in a receive that has gathered two bytes. -/
def waiting : State :=
  { State.reset with
    rxbuf := [7#8]
    op := some (.read 5 true { tc := .long, acc := [1#8, 2#8], first := false })
    hostIn := [.reset]
    results := [{ code := .charRange, data := [], pe := false, info := 2 }]
    txlog := [pk 0xC1#8 [0xAA#8]] }

def strict : State := { State.reset with params := { State.reset.params with strictParity := true } }

def blocking : State := { State.reset with params := { State.reset.params with readTimeoutPolicy := .block } }

def closed : State := { State.reset with transportOpen := false }

theorem ready_reset : State.reset.Ready := ⟨rfl, rfl⟩

/-- CommandChecksInOrder: each check fails somewhere, at the edges of its range. -/
theorem witness_decodeFaults :
    (DecodeFault 0x0F 0 .badOpcode ∧ DecodeFault 0x80 0 .badOpcode ∧ DecodeFault 0x14 0 .badOpcode ∧
      DecodeFault 0x31 2 .badOpcode ∧ DecodeFault 0x52 0 .badOpcode) ∧
    (DecodeFault 0x10 0 .badTrack ∧ DecodeFault 0x20 3 .badTrack) ∧
    (DecodeFault 0x30 0 .badOperand ∧ DecodeFault 0x30 2 .badOperand ∧ DecodeFault 0x51 1 .badOperand ∧
      DecodeFault 0x60 1 .badOperand ∧ DecodeFault 0x70 1 .badOperand) := by
  refine ⟨⟨.opcode ?_, .opcode ?_, .opcode ?_, .opcode ?_, .opcode ?_⟩, ⟨.track ?_ ?_, .track ?_ ?_⟩,
    .operand ?_ ?_ ?_, .operand ?_ ?_ ?_, .operand ?_ ?_ ?_, .operand ?_ ?_ ?_, .operand ?_ ?_ ?_⟩ <;>
    (try unfold OpWordIllegal) <;> (try unfold TrackIllegal) <;> (try unfold ShapeIllegal) <;> decide

/-- CommandChecksInOrder: a command that no check stops, and one that the first check stops, presented. -/
theorem witness_noDecodeFault : (∀ f, ¬ DecodeFault 0x11 1 f) ∧
    ∀ op : Byte, (at_ [] [] op [1#8] 0).op = none ∧
      (at_ [] [] op [1#8] 0).hostIn = .command ⟨op, [1#8], 0⟩ :: [] := by
  refine ⟨fun f h => ?_, fun _ => ⟨rfl, rfl⟩⟩
  cases h with
  | opcode h => revert h; unfold OpWordIllegal; decide
  | track _ h => revert h; unfold TrackIllegal; decide
  | operand _ _ h => revert h; unfold ShapeIllegal; decide

/-- The checks exclude each other: on every op word and operand length up to 2 at most one reports. -/
theorem witness_decodeFault_unique {w len : Nat} {f g : Code} (hf : DecodeFault w len f)
    (hg : DecodeFault w len g) : f = g := by
  cases hf <;> cases hg <;> first | rfl | contradiction

/-- CountReadByReadOnly. -/
theorem witness_notRead : ∀ k data, decode ⟨0x11#8, [], 4⟩ ≠ .ok (.read k data) := by
  intro k data h
  exact absurd h (by simp [show decode ⟨0x11#8, [], 4⟩ = .ok (.unpack 1#2 []) from rfl])

/-- HeaderCodesItsFields: the edges of LEN. -/
theorem witness_headerLen : hdr true true 0 = 0xC0#8 ∧ hdr true false 63 = 0xBF#8 ∧ (63 : Nat) ≤ 63 := by decide

/-- StepRunsDecodedInstruction. -/
theorem witness_stepRuns : (at_ [] [] 0x60#8 [] 3).op = none ∧
    (at_ [] [] 0x60#8 [] 3).hostIn = [.command ⟨0x60#8, [], 3⟩] ∧
    decode ⟨0x60#8, [], 3⟩ = .ok (.read 3 []) := ⟨rfl, rfl, rfl⟩

/-- ResetInputEmptiesRxbuf, and IdleBlockWaits. -/
theorem witness_reset_idle :
    (let s : State := { State.reset with rxbuf := [1#8], hostIn := [.reset] }
     s.op = none ∧ s.hostIn = .reset :: []) ∧
    State.reset.op = none ∧ State.reset.hostIn = [] := ⟨⟨rfl, rfl⟩, rfl, rfl⟩

/-- HostWaitsForOperation, StepFrame and the waiting clauses of OnlyUnpackSetsPe and
FaultsOfWellFormedInstructions: a waiting operation that the step completes, RESET waiting. -/
theorem witness_waiting_step : ∃ p t, waiting.op = some p ∧ waiting.hostIn = [.reset] ∧
    step { waiting with pktIn := [.packet last, .packet (pk 0x41#8 [9#8]), .timeout] } = .next t ∧
    t.op = none ∧ t.hostIn = [.reset] ∧ ∃ r, t.results = waiting.results ++ [r] := by
  refine ⟨_, _, rfl, rfl, rfl, by decide, by decide,
    { code := .incomplete, data := [7#8, 1#8, 2#8, 3#8, 9#8], pe := false, info := 0 }, by decide⟩

/-- WaitingIsSeamless. -/
theorem witness_seamless : ∃ t p, exec (.recv .short []) { State.reset with pktIn := [.packet more] } = .next t ∧
    t.op = some p ∧ [Answer.timeout] ≠ [] :=
  ⟨_, _, rfl, rfl, by decide⟩

/-- OracleAnswersWaitingOperation. -/
theorem witness_oracle : ∃ p, waiting.op = some p ∧ waiting.pktIn = [] := ⟨_, rfl, rfl⟩

theorem waiting_carries : Carries [pk 0xC1#8 [0xAA#8]] [0xAA#8] where
  count := by decide
  payload k p h := by
    match k, h with
    | 0, h => cases h; decide
  header k p h := by
    match k, h with
    | 0, h => cases h; decide

/-- StepKeepsInvariant: a state of the middle of a READ, with a packet sent and a fault answered. -/
theorem witness_invariant :
    waiting.Inv ∧ ∃ t, step { waiting with pktIn := [.packet last] } = .next t ∧ t.rxbuf.length = 4 := by
  refine ⟨⟨fun p h => ?_, fun _ => rfl, fun r h => ?_, ?_⟩, _, rfl, by decide⟩
  · cases h
    exact ⟨by decide, by decide, fun _ => by decide⟩
  · cases h with
    | head =>
      exact ⟨fun _ => ⟨rfl, rfl⟩, fun _ => .inl rfl, fun h => absurd h (by decide),
        fun h => absurd h (by decide)⟩
    | tail _ h => cases h
  · exact ⟨[([pk 0xC1#8 [0xAA#8]], [0xAA#8])], rfl, fun x hx => by cases hx with
      | head => exact waiting_carries
      | tail _ h => cases h⟩

/-- FaultHasNoOtherEffect. -/
theorem witness_fault : ∃ t r, step (at_ [5#8] [.timeout] 0x22#8 [0x41#8] 0) = .next t ∧
    t.results = (at_ [5#8] [.timeout] 0x22#8 [0x41#8] 0).results ++ [r] ∧ r.code.isFault = true :=
  ⟨_, { code := .charRange, data := [], pe := false, info := 0 }, rfl, by decide, by decide⟩

/-- OnlyReadUsesRxbuf. -/
theorem witness_notReadInstr : (∀ n data, Instr.recv .long [] ≠ .read n data) ∧
    ∃ t, exec (.recv .long []) { State.reset with rxbuf := [1#8], pktIn := [.timeout] } = .next t :=
  ⟨fun _ _ h => (nomatch h), _, rfl⟩

/-- OnlySendExtendsTxlog. -/
theorem witness_txlog : ∃ t, step (at_ [] [] 0x40#8 [] 0) = .next t ∧ t.txlog ≠ (at_ [] [] 0x40#8 [] 0).txlog :=
  ⟨_, rfl, List.cons_ne_nil _ _⟩

/-- OnlyUnpackSetsPe. -/
theorem witness_pe : ∃ t r, exec (.unpack 2#2 [0x11#8]) State.reset = .next t ∧
    t.results = State.reset.results ++ [r] ∧ r.pe = true :=
  ⟨_, ok [0x31#8] true, rfl, by decide, rfl⟩

/-- FaultsOfWellFormedInstructions: both of its cases. -/
theorem witness_codecFaults :
    (∃ t r, WellFormed (.pack 2#2 [0x41#8]) = true ∧ exec (.pack 2#2 [0x41#8]) State.reset = .next t ∧
      t.results = State.reset.results ++ [r] ∧ r.code = .charRange) ∧
    ∃ t r, WellFormed (.unpack 2#2 [0x11#8]) = true ∧ exec (.unpack 2#2 [0x11#8]) strict = .next t ∧
      t.results = strict.results ++ [r] ∧ r.code = .parity :=
  ⟨⟨_, { code := .charRange, data := [], pe := false, info := 0 }, by decide, rfl, by decide, rfl⟩,
    _, { code := .parity, data := [], pe := false, info := 0 }, by decide, rfl, by decide, rfl⟩

/-- StepStopsOnClosedTransportOnly. -/
theorem witness_closed : closed.transportOpen = false ∧
    step { closed with hostIn := [.command ⟨0x40#8, [], 0⟩] } = .fault .transportNotOpen ∧
    step { closed with hostIn := [.command ⟨0x51#8, [], 0⟩] } = .fault .transportNotOpen ∧
    step { closed with hostIn := [.command ⟨0x60#8, [], 3⟩] } = .fault .transportNotOpen ∧
    (∃ p, ({ waiting with transportOpen := false } : State).op = some p) ∧
    step { waiting with transportOpen := false } = .fault .transportNotOpen :=
  ⟨rfl, rfl, rfl, rfl, ⟨_, rfl⟩, rfl⟩

/-- PaddingIsNeverData: a pair of packets that differ in padding, and a step that takes one of them. -/
theorem witness_padding :
    let a := Answer.packet (framePacket 0xC1#8 [3#8] fun _ => 0x00#8)
    let b := Answer.packet (framePacket 0xC1#8 [3#8] fun _ => 0xFF#8)
    a ≠ b ∧ List.Forall₂ SameButPadding [a, .timeout] [b, .timeout] ∧
      ∃ t, step (at_ [] [a, .timeout] 0x50#8 [] 0) = .next t := by
  refine ⟨by decide, .cons ⟨by decide, by decide⟩ (.cons trivial .nil), _, rfl⟩

/-- CodecHasNoSideEffects, ParityMakesGroupsOdd, ParityTableOfTracksTwoAndThree, UnpackOutputBounds. -/
theorem witness_codec : closed.op = none ∧ (3 : Nat) % 2 ^ 4 = 19 % 2 ^ 4 ∧
    tdp 1#2 = some ⟨0x20#8, 7⟩ ∧ tdp 2#2 = some ⟨0x30#8, 5⟩ ∧ tdp 3#2 = some ⟨0x30#8, 5⟩ := by decide

/-- UnpackAnswersEmittedGroups: V-U17, the groups emitted, the first wrong parity at group 1. -/
theorem witness_unpack_parity :
    let P : TrackParams := ⟨0x30#8, 5⟩
    strict.params.strictParity = true ∧ mismatchAt P [0x21#8, 0x02#8] 0 = false ∧
      mismatchAt P [0x21#8, 0x02#8] 1 = true ∧ Emits P [0x21#8, 0x02#8] 2 ∧
      (∀ g, g < 2 → mismatchAt P [0x21#8, 0x10#8] g = false) := by
  refine ⟨rfl, by decide, by decide, ⟨by decide, by decide, by decide⟩, by decide⟩

/-- PackAnswersGroups: V-P15 and V-P2. -/
theorem witness_pack :
    let P : TrackParams := ⟨0x30#8, 5⟩
    let bad : List Byte := [0x31#8, 0x32#8, 0x41#8]
    (bad[2]? = some 0x41#8 ∧ P.inAlphabet 0x41#8 = false ∧
      ∀ j d, j < 2 → bad[j]? = some d → P.inAlphabet d = true) ∧
    ∀ c ∈ [0x30#8, 0x3F#8], P.inAlphabet c = true := by
  refine ⟨⟨rfl, by decide, fun j d hj h => ?_⟩, by decide⟩
  match j, h with
  | 0, h => cases h; decide
  | 1, h => cases h; decide

/-- RoundTripFromCharacters, at the edges of the alphabet, and RoundTripTruncatesAtLow. -/
theorem witness_roundTrip :
    let P : TrackParams := ⟨0x20#8, 7⟩
    (∀ c ∈ [0x21#8, 0x5F#8], P.inAlphabet c = true ∧ c ≠ P.low) ∧
    (∀ c ∈ [0x41#8, 0x20#8], P.inAlphabet c = true) ∧ [0x41#8, 0x20#8][1]? = some P.low ∧
    ∀ j, j < 1 → [0x41#8, 0x20#8][j]? ≠ some P.low := by decide

/-- RoundTripFromBytes: V-P1 and V-U1 meet its left side. -/
theorem witness_roundTrip_bytes : ∃ t u,
    exec (.unpack 1#2 [0x61#8, 0xF1#8, 0x08#8]) State.reset = .next t ∧
      t.results = [ok [0x41#8, 0x42#8, 0x43#8]] ∧
    exec (.pack 1#2 [0x41#8, 0x42#8, 0x43#8]) State.reset = .next u ∧
      u.results = [ok [0x61#8, 0xF1#8, 0x08#8]] :=
  ⟨_, _, rfl, by decide, rfl, by decide⟩

/-- HdrdecSplitsHeader, OperandsRejected, FlushHasNoEffect, RecvAnswersOneReceive: operands rejected. -/
theorem witness_operands : ([] : List Byte).length ≠ 1 ∧ [0#8, 0#8].length ≠ 1 ∧ [0#8, 0#8] ≠ [] ∧
    State.reset.op = none := by decide

/-- SendEmitsMessage and SendHeaders: a message of one packet and one of two, at the border. -/
theorem witness_send : State.reset.Ready ∧ (List.replicate 63 0#8).length ≤ 63 ∧
    63 < (List.replicate 64 0#8).length := ⟨ready_reset, by decide, by decide⟩

/-- RecvAnswersOneReceive, ReadZeroDrains: each way a receive ends. -/
theorem witness_receiveEnds :
    ReceiveEnds [.packet more, .packet last] .ok [1#8, 2#8, 3#8] ∧ ReceiveEnds [.timeout] .nothing [] ∧
      ReceiveEnds [.packet more, .timeout] .incomplete [1#8, 2#8] :=
  ⟨⟨[more], by decide, .inl ⟨rfl, last, by decide, rfl, by decide⟩⟩,
    ⟨[], by decide, .inr (.inl ⟨rfl, rfl, rfl, rfl⟩)⟩,
    ⟨[more], by decide, .inr (.inr ⟨rfl, by decide, rfl, by decide⟩)⟩⟩

/-- RecvAnswersOneReceive, ReadZeroDrains: the state, with an answer after the receive's. -/
theorem witness_receive_state :
    let s : State := { State.reset with rxbuf := [9#8], pktIn := [.packet more, .timeout, .packet last] }
    s.Ready ∧ s.pktIn = [.packet more, .timeout] ++ [.packet last] := ⟨⟨rfl, rfl⟩, rfl⟩

/-- RecvWaitsWithoutEos and RecvEndsOnEosOrTimeout. -/
theorem witness_recv :
    (∀ p ∈ [more, more], p.eos = false) ∧
    (Answer.timeout ∈ [Answer.packet more, .timeout]) ∧
    ∃ p, Answer.packet p ∈ [Answer.packet more, .packet last] ∧ p.eos = true :=
  ⟨by decide, by decide, last, by decide, by decide⟩

/-- The receives of a READ: an INCOMPLETE one and then a whole message. -/
def two : List Received :=
  [⟨[.packet more, .timeout], .incomplete, [1#8, 2#8]⟩, ⟨[.packet last], .ok, [3#8]⟩]

theorem readGoesOn_two {s : State} {n : Nat} (hs : s.rxbuf = []) (hn : 3 ≤ n) : ReadGoesOn s n two where
  ended r h := by
    simp only [two, List.mem_cons, List.not_mem_nil, or_false] at h
    rcases h with rfl | rfl
    · exact witness_receiveEnds.2.2
    · exact ⟨[], by decide, .inl ⟨rfl, last, by decide, rfl, by decide⟩⟩
  wanted j hj := by
    simp only [two, List.length_cons, List.length_nil] at hj
    rw [hs]
    match j, hj with
    | 0, _ => simp only [allBytes, List.take_zero, List.map_nil, List.flatten_nil, List.append_nil,
        List.length_nil]; omega
    | 1, _ => simp only [two, allBytes, List.take_succ_cons, List.take_zero, List.map_cons, List.map_nil,
        List.flatten_cons, List.flatten_nil, List.append_nil, List.nil_append, List.length_cons,
        List.length_nil]; omega
  quiet _ r h := by
    simp only [two, List.mem_cons, List.not_mem_nil, or_false] at h
    rcases h with rfl | rfl <;> decide

/-- ReadReturnsFirstBytes: two receives that bring exactly the n bytes, and none with n bytes buffered. -/
theorem witness_read :
    (ReadGoesOn { State.reset with pktIn := allAnswers two ++ [.timeout] } 3 two ∧
      3 ≤ ([] ++ allBytes two).length) ∧
    let s : State := { State.reset with rxbuf := [1#8, 2#8] }
    s.Ready ∧ ReadGoesOn s 2 [] ∧ s.pktIn = allAnswers [] ++ [] ∧ 2 ≤ (s.rxbuf ++ allBytes []).length :=
  ⟨⟨readGoesOn_two rfl (by decide), by decide⟩, ⟨rfl, rfl⟩,
    ⟨fun _ h => (nomatch h), fun _ h => (nomatch h), fun _ _ h => (nomatch h)⟩, rfl, by decide⟩

/-- ReadWhenTransportIsQuiet: SHORT after an INCOMPLETE receive (P4), and the policy BLOCK. -/
theorem witness_read_quiet :
    (let s : State := { State.reset with pktIn := allAnswers two ++ .timeout :: [.packet last] }
   s.Ready ∧ s.params.readTimeoutPolicy = .returnShort ∧ ReadGoesOn s 4 two ∧
        (s.rxbuf ++ allBytes two).length < 4) ∧
    let s : State := { blocking with pktIn := allAnswers two ++ List.replicate 2 .timeout }
    s.Ready ∧ s.params.readTimeoutPolicy = .block ∧ ReadGoesOn s 4 two ∧ (s.rxbuf ++ allBytes two).length < 4 :=
  ⟨⟨⟨rfl, rfl⟩, rfl, readGoesOn_two rfl (by decide), by decide⟩, ⟨rfl, rfl⟩, rfl,
    readGoesOn_two rfl (by decide), by decide⟩

/-- ReadWaitsForMoreBytes. -/
theorem witness_read_waits :
    let s : State := { State.reset with pktIn := allAnswers two ++ [more].map .packet }
    s.Ready ∧ ReadGoesOn s 4 two ∧ (∀ p ∈ [more], p.eos = false) ∧ (s.rxbuf ++ allBytes two).length < 4 :=
  ⟨⟨rfl, rfl⟩, readGoesOn_two rfl (by decide), by decide, by decide⟩

/-- ReadZeroWaitsWithoutEos: packets without EOS listed, bytes buffered before. -/
theorem witness_read_zero_waits :
    let s : State := { State.reset with rxbuf := [9#8], pktIn := [more, more].map .packet }
    s.Ready ∧ (∀ p ∈ [more, more], p.eos = false) ∧ s.pktIn = [more, more].map .packet :=
  ⟨⟨rfl, rfl⟩, by decide, rfl⟩

/-- ReceiveUndoesSend: the two packets of a message of 64 bytes, delivered with one answer after them. -/
theorem witness_carries :
    let ps := [pk 0xBF#8 (List.replicate 63 5#8), pk 0x41#8 [5#8]]
    let u : State := { State.reset with pktIn := ps.map .packet ++ [.timeout] }
    Carries ps (List.replicate 64 5#8) ∧ u.Ready := by
  refine ⟨⟨by decide, fun k p h => ?_, fun k p h => ?_⟩, rfl, rfl⟩
  · match k, h with
    | 0, h => cases h; decide
    | 1, h => cases h; decide
  · match k, h with
    | 0, h => cases h; decide
    | 1, h => cases h; decide

/-- LoopbackReadReturnsMessage: READ 1 and READ 2 of a message of two bytes, RXBUF empty. -/
theorem witness_loopback : State.reset.Ready ∧ State.reset.rxbuf = [] ∧ 0 < 1 ∧ 1 ≤ [1#8, 2#8].length ∧
    2 ≤ [1#8, 2#8].length := ⟨ready_reset, rfl, by decide, by decide, by decide⟩

end Sys2Proof.Tests
end

section
/-! PROOFS. The scope family: the track table and the alphabets. -/

namespace Sys2Proof.Machine

/-- R23: the entry of track 1. -/
theorem tdp_one : tdp 1#2 = some { low := 0x20#8, bits := 7 } := rfl

/-- R23: the entry of track 2. -/
theorem tdp_two : tdp 2#2 = some { low := 0x30#8, bits := 5 } := rfl

/-- R23: the entry of track 3, equal to that of track 2. -/
theorem tdp_three : tdp 3#2 = some { low := 0x30#8, bits := 5 } := rfl

/-- R10: the alphabet as a range of code points. -/
theorem TrackParams.inAlphabet_iff (P : TrackParams) (c : Byte) :
    P.inAlphabet c = true ↔
      P.low.toNat ≤ c.toNat ∧ c.toNat ≤ P.low.toNat + 2 ^ P.dataBits - 1 :=
  decide_eq_true_iff

end Sys2Proof.Machine

namespace Sys2Proof
open Machine

/-- Settles O25: the entries of the table, and each alphabet's bounds computed from its entry. -/
theorem trackTableAndAlphabets : Obligations.TrackTableAndAlphabets :=
  ⟨tdp_none.2 rfl,
    ⟨_, tdp_one, rfl, rfl, rfl, TrackParams.inAlphabet_iff _⟩,
    ⟨_, tdp_two, tdp_three, rfl, rfl, rfl, TrackParams.inAlphabet_iff _⟩⟩

end Sys2Proof
end

section
/-! PROOFS. The state family: the launch state. -/

namespace Sys2Proof.Machine

/-- D7: the spec's value of STRICT_PARITY. -/
@[simp] theorem BuildParams.spec_strictParity : BuildParams.spec.strictParity = false := rfl

/-- D15: the spec's value of READ_TIMEOUT_POLICY. -/
@[simp] theorem BuildParams.spec_readTimeoutPolicy :
    BuildParams.spec.readTimeoutPolicy = .returnShort := rfl

@[simp] theorem State.reset_rxbuf : State.reset.rxbuf = [] := rfl
@[simp] theorem State.reset_txlog : State.reset.txlog = [] := rfl
@[simp] theorem State.reset_op : State.reset.op = none := rfl
@[simp] theorem State.reset_params : State.reset.params = BuildParams.spec := rfl

end Sys2Proof.Machine

namespace Sys2Proof
open Machine

/-- Settles O12: R32's three fields of the launch state, and R9's build parameters, which it holds. -/
theorem resetStateIsClean : Obligations.ResetStateIsClean := by
  refine ⟨State.reset_rxbuf, State.reset_txlog, State.reset_op, ?strictParity, ?readTimeoutPolicy⟩
  case strictParity => rw [State.reset_params, BuildParams.spec_strictParity]
  case readTimeoutPolicy => rw [State.reset_params, BuildParams.spec_readTimeoutPolicy]

end Sys2Proof
end

section
/-! PROOFS. The encoding family: the checks on a command, and the packet header. -/

namespace Sys2Proof
open Machine

/-! ### The op word's fields as numbers -/

/-- R60: MAJ. -/
theorem opMaj_toNat (w : Byte) : (opMaj w).toNat = w.toNat / 16 := by
  have := w.isLt
  simp only [opMaj, BitVec.extractLsb'_toNat, Nat.shiftRight_eq_div_pow]
  omega

/-- R60: RSV. -/
theorem opRsv_toNat (w : Byte) : (opRsv w).toNat = w.toNat / 4 % 4 := by
  simp [opRsv, BitVec.extractLsb'_toNat, Nat.shiftRight_eq_div_pow]

/-- R60: MIN. -/
theorem opMin_toNat (w : Byte) : (opMin w).toNat = w.toNat % 4 := by
  simp [opMin, BitVec.extractLsb'_toNat]

/-- R60: an op word as a number. -/
theorem opWord_toNat (a : BitVec 4) (b : BitVec 2) : (opWord a b).toNat = 16 * a.toNat + b.toNat := by
  revert a b; decide

/-- R66: MIN values 0b10 and 0b11 are the ones that name no timeout class. -/
theorem decodeTimeoutClass_none {m : BitVec 2} (h : decodeTimeoutClass m = none) : 2 ≤ m.toNat := by
  revert m; decide

/-! ### The checks on an instruction's own command -/

/-- R61 step 1, R69: a command that the decoder rejects has an unassigned op word. -/
theorem opWordIllegal_of_decode_error {c : Command} {e : DecodeError} (h : decode c = .error e) :
    OpWordIllegal c.op.toNat := by
  unfold OpWordIllegal
  rw [← opMaj_toNat, ← opRsv_toNat, ← opMin_toNat]
  have nonzero {m : BitVec 2} (hm : m ≠ 0#2) : m.toNat ≠ 0 := by simpa [← BitVec.toNat_inj] using hm
  have minIllegal {i : Instr}
      (hi : (if opMin c.op = 0#2 then Except.ok i else .error .badOpcode) = .error e) :
      (opMin c.op).toNat ≠ 0 := by
    split at hi
    · cases hi
    · next h0 => exact nonzero h0
  unfold decode at h
  split at h
  · next hr => exact .inr (.inr (.inl (nonzero hr)))
  · split at h
    · cases h
    · cases h
    · have := minIllegal h; omega
    · have := minIllegal h; omega
    · split at h
      · cases h
      · next htc => have := decodeTimeoutClass_none htc; omega
    · have := minIllegal h; omega
    · have := minIllegal h; omega
    · simp only [imp_false] at *
      omega

/-- R71: a command that decodes carries the op word and the operand of what it decodes to. -/
theorem encode_of_decode_ok {c : Command} {i : Instr} (h : decode c = .ok i) :
    (encode i).op = c.op ∧ (encode i).data = c.data := by
  obtain ⟨hr, hi⟩ := decode_ok h
  have hw := opWord_fields hr
  rcases hi with ⟨hm, rfl⟩ | ⟨hm, rfl⟩ | ⟨hm, h0, rfl⟩ | ⟨hm, h0, rfl⟩ | ⟨hm, tc, h0, rfl⟩ |
    ⟨hm, h0, rfl⟩ | ⟨hm, h0, rfl⟩ <;> simp_all [encode]

/-- R62 to R68: the op word of an instruction is assigned. -/
theorem not_opWordIllegal_encode (i : Instr) : ¬ OpWordIllegal (encode i).op.toNat := by
  unfold OpWordIllegal
  cases i with
  | unpack tt d =>
    have := tt.isLt
    simp only [encode, opWord_toNat, BitVec.toNat_ofNat]
    omega
  | pack tt d =>
    have := tt.isLt
    simp only [encode, opWord_toNat, BitVec.toNat_ofNat]
    omega
  | recv tc d => cases tc <;> simp [encode, opWord_toNat, encodeTimeoutClass]
  | _ => simp [encode, opWord_toNat]

/-- R61 step 2: check 2 fails on the op words of the instructions whose track is not legal. -/
theorem trackIllegal_encode (i : Instr) :
    TrackIllegal (encode i).op.toNat ↔ i.trackLegal = false := by
  unfold TrackIllegal
  cases i with
  | unpack tt d =>
    simp only [encode, opWord_toNat, BitVec.toNat_ofNat, Instr.trackLegal,
      bne_eq_false_iff_eq, ← BitVec.toNat_inj]
    omega
  | pack tt d =>
    simp only [encode, opWord_toNat, BitVec.toNat_ofNat, Instr.trackLegal,
      bne_eq_false_iff_eq, ← BitVec.toNat_inj]
    omega
  | recv tc d => cases tc <;> simp [encode, opWord_toNat, encodeTimeoutClass, Instr.trackLegal]
  | _ => simp [encode, opWord_toNat, Instr.trackLegal]

/-- R61 step 3, R76: check 3 fails on the commands of the instructions whose operand shape is not legal. -/
theorem shapeIllegal_encode (i : Instr) :
    ShapeIllegal (encode i).op.toNat (encode i).data.length ↔ i.shapeLegal = false := by
  unfold ShapeIllegal
  cases i with
  | unpack tt d =>
    have := tt.isLt
    simp only [encode, opWord_toNat, BitVec.toNat_ofNat, Instr.shapeLegal,
      Bool.true_eq_false, iff_false]
    omega
  | pack tt d =>
    have := tt.isLt
    simp only [encode, opWord_toNat, BitVec.toNat_ofNat, Instr.shapeLegal,
      Bool.true_eq_false, iff_false]
    omega
  | recv tc d => cases tc <;> simp [encode, opWord_toNat, encodeTimeoutClass, Instr.shapeLegal]
  | _ => simp [encode, opWord_toNat, Instr.shapeLegal]

/-! ### What an ill-formed instruction answers -/

/-- R141: UNPACK and PACK of track field 0b00. -/
theorem exec_badTrack {i : Instr} (h : i.trackLegal = false) (s : State) :
    exec i s = .next (s.raiseFault .badTrack 0) := by
  cases i with
  | unpack tt d =>
    have ht : tdp tt = none := tdp_none.2 (by simpa [Instr.trackLegal] using h)
    simp only [exec, execUnpack, ht]
  | pack tt d =>
    have ht : tdp tt = none := tdp_none.2 (by simpa [Instr.trackLegal] using h)
    simp only [exec, execPack, ht]
  | _ => cases h

/-- R110: HDRDEC without exactly one byte. -/
theorem exec_hdrdec_badOperand {d : List Byte} (h : d.length ≠ 1) (s : State) :
    exec (.hdrdec d) s = .next (s.raiseFault .badOperand 0) := by
  simp only [exec, execHdrdec]
  split
  · exact absurd rfl h
  · rfl

/-- R144: an operand of illegal shape. -/
theorem exec_illegalShape {i : Instr} (h : i.shapeLegal = false) (s : State) :
    exec i s = .next (s.raiseFault .badOperand 0) := by
  have nonempty {d : List Byte} (hd : (d.length == 0) = false) : d ≠ [] := by
    rintro rfl; cases hd
  cases i with
  | hdrdec d => exact exec_hdrdec_badOperand (ne_of_beq_false h) s
  | recv tc d => exact (exec_badOperand (nonempty h) s).1 tc
  | read n d => exact (exec_badOperand (nonempty h) s).2.1 n
  | flush d => exact (exec_badOperand (nonempty h) s).2.2
  | _ => cases h

/-! ### The checks in their order -/

/-- R61, R46: between operations a step runs the command presented. -/
theorem step_command {s : State} {c : Command} {rest : List HostInput} (ho : s.op = none)
    (hh : s.hostIn = .command c :: rest) : step s = runCommand c { s with hostIn := rest } := by
  simp only [step, ho, hh]

/-- R142, R69: what a rejected op word answers. -/
theorem runCommand_error {c : Command} {e : DecodeError} (h : decode c = .error e) (s : State) :
    runCommand c s = .next (s.raiseFault .badOpcode 0) := by
  cases e; simp only [runCommand, h]

theorem runCommand_ok {c : Command} {i : Instr} (h : decode c = .ok i) (s : State) :
    runCommand c s = exec i s := by
  simp only [runCommand, h]

/-- R61: the checks on a command that decodes are those of the instruction: its op word is assigned, and
checks 2 and 3 are its own. -/
theorem checks_of_decode_ok {c : Command} {i : Instr} (h : decode c = .ok i) :
    ¬ OpWordIllegal c.op.toNat ∧ (TrackIllegal c.op.toNat ↔ i.trackLegal = false) ∧
      (ShapeIllegal c.op.toNat c.data.length ↔ i.shapeLegal = false) := by
  obtain ⟨hop, hdata⟩ := encode_of_decode_ok h
  rw [← hop, ← hdata]
  exact ⟨not_opWordIllegal_encode i, trackIllegal_encode i, shapeIllegal_encode i⟩

/-- R61, R143: the check that fails is the fault that the command raises. -/
theorem runCommand_decodeFault {c : Command} {f : Code} (h : DecodeFault c.op.toNat c.data.length f)
    (s : State) : runCommand c s = .next (s.raiseFault f 0) := by
  cases hd : decode c with
  | error e =>
    have hw := opWordIllegal_of_decode_error hd
    cases h with
    | opcode => exact runCommand_error hd s
    | track hn _ => exact absurd hw hn
    | operand hn _ _ => exact absurd hw hn
  | ok i =>
    obtain ⟨hassigned, htrack, hshape⟩ := checks_of_decode_ok hd
    rw [runCommand_ok hd]
    cases h with
    | opcode hw => exact absurd hw hassigned
    | track _ ht => exact exec_badTrack (htrack.1 ht) s
    | operand _ _ hs => exact exec_illegalShape (hshape.1 hs) s

/-- R61: a command that no check stops selects a well-formed instruction. -/
theorem decode_of_noDecodeFault {c : Command} (h : ∀ f, ¬ DecodeFault c.op.toNat c.data.length f) :
    ∃ i, decode c = .ok i ∧ WellFormed i = true := by
  cases hd : decode c with
  | error e => exact absurd (.opcode (opWordIllegal_of_decode_error hd)) (h _)
  | ok i =>
    obtain ⟨hassigned, htrack, hshape⟩ := checks_of_decode_ok hd
    have ht : ¬ TrackIllegal c.op.toNat := fun ht => h _ (.track hassigned ht)
    have hs : ¬ ShapeIllegal c.op.toNat c.data.length := fun hs => h _ (.operand hassigned ht hs)
    refine ⟨i, rfl, ?_⟩
    rw [htrack, Bool.not_eq_false] at ht
    rw [hshape, Bool.not_eq_false] at hs
    rw [WellFormed, ht, hs, Bool.and_self]

/-- Settles O3: a failing check is the fault the command raises, and a command that fails none decodes to
a well-formed instruction. -/
theorem commandChecksInOrder : Obligations.CommandChecksInOrder := by
  intro s c rest ho hh
  refine ⟨fun f hf => ?_, fun hno => ?_⟩
  · rw [step_command ho hh, runCommand_decodeFault hf]
    simp only [State.raiseFault, State.deliver, ho]
  · obtain ⟨i, hd, hw⟩ := decode_of_noDecodeFault hno
    exact ⟨i, hd, hw, by rw [step_command ho hh, runCommand_ok hd]⟩

/-! ### The packet header -/

/-- R72: the header byte as a number. -/
theorem hdr_toNat (sos eos : Bool) {len : Nat} (h : len ≤ 63) :
    (hdr sos eos len).toNat = 128 * sos.toNat + 64 * eos.toNat + len := by
  have all : ∀ n < 64, ∀ a b : Bool, (hdr a b n).toNat = 128 * a.toNat + 64 * b.toNat + n := by decide
  exact all len (by omega) sos eos

/-- R72: LEN is six bits wide. -/
theorem hdrLen_le (h : Byte) : hdrLen h ≤ 63 :=
  Nat.le_of_lt_succ (h.extractLsb' 0 6).isLt

/-- R72: "Every one of the 256 header values decodes". -/
theorem hdr_of_fields (h : Byte) : hdr (hdrSos h) (hdrEos h) (hdrLen h) = h := by
  revert h; decide

/-- Settles O5: the header's value and its fields, for every LEN and for every byte. -/
theorem headerCodesItsFields : Obligations.HeaderCodesItsFields :=
  ⟨fun sos eos _ hl => ⟨hdr_toNat sos eos hl, hdr_fields sos eos hl⟩,
    fun h => ⟨hdr_of_fields h, hdrLen_le h⟩⟩

end Sys2Proof
end

section
/-! PROOFS. The codec family: what UNPACK and PACK answer, and the two round trips between them. -/

namespace Sys2Proof.Machine

/-! ### The answers as results -/

/-- R80, R85: the result of UNPACK on a track, from what its loop answers. -/
def unpackResult : Except Nat (List Byte × Bool) → Result
  | .error g => { code := .parity, data := [], pe := false, info := g }
  | .ok (out, pe) => { code := .ok, data := out, pe := pe, info := 0 }

/-- R86, R88: the result of PACK on a track with parameters `P`. -/
def packResult (P : TrackParams) (chars : List Byte) : Result :=
  match rangeFault P chars with
  | some i => { code := .charRange, data := [], pe := false, info := i }
  | none => { code := .ok, data := packBytes P chars, pe := false, info := 0 }

/-- R80, R84: UNPACK on a track answers its result and does nothing else. -/
theorem exec_unpack {tt : BitVec 2} {P : TrackParams} (h : tdp tt = some P) (b : List Byte) {s : State}
    (ho : s.op = none) :
    exec (.unpack tt b) s =
      .next { s with results := s.results ++ [unpackResult (unpackBytes P s.params.strictParity b)] } := by
  simp only [exec, execUnpack, h, ← State.deliver_idle ho]
  cases unpackBytes P s.params.strictParity b <;> rfl

/-- R86: PACK on a track answers its result and does nothing else. -/
theorem exec_pack {tt : BitVec 2} {P : TrackParams} (h : tdp tt = some P) (chars : List Byte) {s : State}
    (ho : s.op = none) :
    exec (.pack tt chars) s = .next { s with results := s.results ++ [packResult P chars] } := by
  simp only [exec, execPack, h, ← State.deliver_idle ho, packResult]
  cases rangeFault P chars <;> rfl

/-- R28: two steps that answer one result each and agree answered the same result. -/
theorem answered_inj {s : State} {q r : Result}
    (h : (Host.Outcome.next { s with results := s.results ++ [q] } : Host.Outcome State Fault Refusal) =
      .next { s with results := s.results ++ [r] }) : q = r := by
  simpa using h

/-- R23: every track has groups of at least one bit. -/
theorem bits_pos_of_tdp {tt : BitVec 2} {P : TrackParams} (h : tdp tt = some P) : 0 < P.bits := by
  rcases tdp_cases h with rfl | rfl <;> decide

/-! ### UNPACK -/

/-- R80, R84, R85: what UNPACK's loop can answer: the characters of the groups emitted, or the index of
an emitted group. -/
theorem unpackBytes_cases {P : TrackParams} (hN : 0 < P.bits) (strict : Bool) (b : List Byte) :
    ∃ k, Emits P b k ∧
      (unpackBytes P strict b = .ok ((List.range k).map (charAt P b), (List.range k).any (mismatchAt P b)) ∨
        ∃ e, e < k ∧ unpackBytes P strict b = .error e) := by
  obtain ⟨k, hk⟩ := exists_emits hN b
  refine ⟨k, hk, ?_⟩
  by_cases hpar : strict = true → ∀ g, g < k → mismatchAt P b g = false
  · exact .inl (unpackBytes_ok hN hk hpar)
  · obtain ⟨rfl, hbad⟩ := Classical.not_imp.1 hpar
    have hex : ∃ g, g < k ∧ mismatchAt P b g = true := by simpa using hbad
    obtain ⟨he, hmis⟩ := Nat.find_spec hex
    refine .inr ⟨Nat.find hex, he, unpackBytes_parity hN hk he hmis fun g hg => ?_⟩
    simpa [hg.trans he] using Nat.find_min hex hg

/-- R82, R89: an emitted character is of the alphabet and not L(t). -/
theorem charAt_of_emits {tt : BitVec 2} {P : TrackParams} (h : tdp tt = some P) {b : List Byte} {k g : Nat}
    (hk : Emits P b k) (hg : g < k) : P.inAlphabet (charAt P b g) = true ∧ charAt P b g ≠ P.low := by
  obtain ⟨halpha, hlow, -⟩ := charOf_spec h (group_lt P.bits b g)
  exact ⟨halpha, fun hc => hk.nonzero g hg (hlow.1 hc)⟩

/-- R89, R93: UNPACK's characters are of the alphabet, none is L(t), and a group stands for each. -/
theorem unpackResult_data {tt : BitVec 2} {P : TrackParams} (h : tdp tt = some P) (strict : Bool)
    (b : List Byte) :
    (∀ c ∈ (unpackResult (unpackBytes P strict b)).data, P.inAlphabet c = true ∧ c ≠ P.low) ∧
      (unpackResult (unpackBytes P strict b)).data.length ≤ 8 * b.length / P.bits := by
  have hN := bits_pos_of_tdp h
  obtain ⟨k, hk, hu | ⟨e, -, hu⟩⟩ := unpackBytes_cases hN strict b
  · rw [hu]
    refine ⟨fun c hc => ?_, ?_⟩
    · obtain ⟨g, hg, rfl⟩ := List.mem_map.1 hc
      exact charAt_of_emits h hk (List.mem_range.1 hg)
    · simpa [unpackResult] using (Nat.le_div_iff_mul_le hN).2 hk.whole
  · simp [hu, unpackResult]

/-- R89: the alphabet without L(t) as a range of code points. -/
theorem bounds_of_inAlphabet {P : TrackParams} {c : Byte} (h : P.inAlphabet c = true) (hne : c ≠ P.low) :
    P.low.toNat + 1 ≤ c.toNat ∧ c.toNat ≤ P.low.toNat + 2 ^ P.dataBits - 1 := by
  obtain ⟨hlo, hhi⟩ := (TrackParams.inAlphabet_iff P c).1 h
  have hlow : c.toNat ≠ P.low.toNat := fun he => hne (BitVec.eq_of_toNat_eq he)
  exact ⟨by omega, hhi⟩

/-! ### PACK -/

/-- R88: a string over the alphabet passes the range check. -/
theorem packResult_ok {P : TrackParams} {chars : List Byte} (hc : ∀ c ∈ chars, P.inAlphabet c = true) :
    packResult P chars = { code := .ok, data := packBytes P chars, pe := false, info := 0 } := by
  have hnone : rangeFault P chars = none := by simpa [rangeFault] using hc
  simp only [packResult, hnone]

/-- R88: the range check reports the lowest index of a character outside the alphabet. -/
theorem packResult_charRange {P : TrackParams} {chars : List Byte} {i : Nat} {c : Byte}
    (hi : chars[i]? = some c) (hbad : P.inAlphabet c = false)
    (hlow : ∀ j d, j < i → chars[j]? = some d → P.inAlphabet d = true) :
    packResult P chars = { code := .charRange, data := [], pe := false, info := i } := by
  obtain ⟨hlt, rfl⟩ := List.getElem?_eq_some_iff.1 hi
  have hsome : rangeFault P chars = some i := by
    rw [rangeFault, List.findIdx?_eq_some_iff_getElem]
    refine ⟨hlt, by rw [hbad]; rfl, fun j hj => ?_⟩
    simpa using hlow j _ hj (List.getElem?_eq_getElem (hj.trans hlt))
  simp only [packResult, hsome]

/-- R42, R86: group i of PACK's bytes holds character i with its right parity. -/
theorem charAt_packBytes {tt : BitVec 2} {P : TrackParams} (h : tdp tt = some P) {chars : List Byte}
    (hc : ∀ c ∈ chars, P.inAlphabet c = true) {i : Nat} {c : Byte} (hi : chars[i]? = some c) :
    charAt P (packBytes P chars) i = c ∧ mismatchAt P (packBytes P chars) i = false := by
  obtain ⟨-, hgroup, -⟩ := packBytes_spec h hc
  obtain ⟨-, hchar, hpar, -⟩ := groupOf_spec h (hc c (List.mem_of_getElem? hi))
  have hG : group P.bits (packBytes P chars) i = groupOf P c := by simp [hgroup, hi]
  rw [charAt, mismatchAt, hG]
  exact ⟨hchar, hpar⟩

/-! ### UNPACK of PACK -/

/-- R82, R90: of a packed string UNPACK emits the groups before the first L(t), or all of them: past the
string the groups are 0, if they are whole. -/
theorem emits_packBytes {tt : BitVec 2} {P : TrackParams} (h : tdp tt = some P) {chars : List Byte}
    (hc : ∀ c ∈ chars, P.inAlphabet c = true) {k : Nat} (hk : k ≤ chars.length)
    (hne : ∀ j, j < k → chars[j]? ≠ some P.low) (hstop : ∀ c, chars[k]? = some c → c = P.low) :
    Emits P (packBytes P chars) k := by
  obtain ⟨hlen, hgroup, -⟩ := packBytes_spec h hc
  refine ⟨?whole, fun g hg hzero => ?nonzero, fun _ => ?stops⟩
  case whole =>
    have : k * P.bits ≤ chars.length * P.bits := Nat.mul_le_mul_right _ hk
    omega
  case nonzero =>
    have hget := List.getElem?_eq_getElem (hg.trans_le hk)
    obtain ⟨hchar, -⟩ := charAt_packBytes h hc hget
    obtain ⟨-, hlow, -⟩ := charOf_spec h (group_lt P.bits (packBytes P chars) g)
    exact hne g hg (by rw [hget, ← hchar, charAt, hlow.2 hzero])
  case stops =>
    rw [hgroup, List.getD_eq_getElem?_getD, List.getElem?_map]
    cases hget : chars[k]? with
    | none => exact Nat.zero_mod _
    | some c =>
      obtain ⟨-, -, -, hzero⟩ := groupOf_spec h (hc c (List.mem_of_getElem? hget))
      exact hzero.2 (hstop c hget)

/-- R90, R92: UNPACK of a packed string gives the characters before the first L(t), with no parity
error, whatever STRICT_PARITY is. -/
theorem unpackBytes_packBytes {tt : BitVec 2} {P : TrackParams} (h : tdp tt = some P) {chars : List Byte}
    (hc : ∀ c ∈ chars, P.inAlphabet c = true) {k : Nat} (hk : k ≤ chars.length)
    (hne : ∀ j, j < k → chars[j]? ≠ some P.low) (hstop : ∀ c, chars[k]? = some c → c = P.low)
    (strict : Bool) : unpackBytes P strict (packBytes P chars) = .ok (chars.take k, false) := by
  have hget (g : Nat) (hg : g < k) :
      charAt P (packBytes P chars) g = chars[g] ∧ mismatchAt P (packBytes P chars) g = false :=
    charAt_packBytes h hc (List.getElem?_eq_getElem (hg.trans_le hk))
  rw [unpackBytes_ok (bits_pos_of_tdp h) (emits_packBytes h hc hk hne hstop) fun _ g hg => (hget g hg).2]
  have hchars : (List.range k).map (charAt P (packBytes P chars)) = chars.take k := by
    refine List.ext_getElem (by simpa using hk) fun g hg _ => ?_
    simpa using (hget g (by simpa using hg)).1
  have hpe : (List.range k).any (mismatchAt P (packBytes P chars)) = false := by
    simpa using fun g hg => (hget g hg).2
  rw [hchars, hpe]

/-- R90, R92: PACK of a string over the alphabet in any state, then UNPACK of its bytes in any state. -/
theorem exec_pack_unpack {tt : BitVec 2} {P : TrackParams} (h : tdp tt = some P) {chars : List Byte}
    (hc : ∀ c ∈ chars, P.inAlphabet c = true) {k : Nat} (hk : k ≤ chars.length)
    (hne : ∀ j, j < k → chars[j]? ≠ some P.low) (hstop : ∀ c, chars[k]? = some c → c = P.low) :
    (∀ s : State, s.op = none → exec (.pack tt chars) s = .next { s with
      results := s.results ++ [{ code := .ok, data := packBytes P chars, pe := false, info := 0 }] }) ∧
    ∀ u : State, u.op = none → exec (.unpack tt (packBytes P chars)) u = .next { u with
      results := u.results ++ [{ code := .ok, data := chars.take k, pe := false, info := 0 }] } := by
  refine ⟨fun s ho => ?_, fun u ho => ?_⟩
  · rw [exec_pack h chars ho, packResult_ok hc]
  · rw [exec_unpack h _ ho, unpackBytes_packBytes h hc hk hne hstop]
    rfl

end Sys2Proof.Machine

namespace Sys2Proof
open Machine

/-- Settles O31: with no L(t) in the string, UNPACK goes on to its end. -/
theorem roundTripFromCharacters : Obligations.RoundTripFromCharacters := by
  intro tt P chars ht hchars
  have hne : ∀ j, j < chars.length → chars[j]? ≠ some P.low :=
    fun j _ hj => (hchars _ (List.mem_of_getElem? hj)).2 rfl
  have hrt := exec_pack_unpack ht (fun c hc => (hchars c hc).1) le_rfl hne (by simp)
  rw [List.take_length] at hrt
  exact ⟨_, hrt⟩

/-- Settles O32: what UNPACK answers is a string over the alphabet without L(t), and such a string comes
back from its PACK. -/
theorem roundTripFromBytes : Obligations.RoundTripFromBytes := by
  intro s tt P raw ho ht
  constructor
  · rintro ⟨chars, pe, hne, hunpack, hpack⟩
    refine ⟨chars, hne, ?_, hpack⟩
    rw [exec_unpack ht raw ho] at hunpack
    obtain ⟨hdata, -⟩ := unpackResult_data ht s.params.strictParity raw
    rwa [answered_inj hunpack] at hdata
  · rintro ⟨chars, hne, hchars, hpack⟩
    obtain ⟨raw', hpack', hunpack⟩ := roundTripFromCharacters tt P chars ht hchars
    have hresult := answered_inj ((hpack' s ho).symm.trans hpack)
    obtain rfl : raw' = raw := congrArg Result.data hresult
    exact ⟨chars, false, hne, hunpack s ho, hpack⟩

/-- Settles O28: the groups emitted are those of `exists_emits`, and on them UNPACK's loop answers their
characters or, under STRICT_PARITY, the first wrong parity. -/
theorem unpackAnswersEmittedGroups : Obligations.UnpackAnswersEmittedGroups := by
  intro s tt data ho
  refine ⟨fun htt => ?_, fun P ht => ?_⟩
  · rw [exec_badTrack (by simp [Instr.trackLegal, htt]), State.raiseFault_idle ho]
  · have hN := bits_pos_of_tdp ht
    obtain ⟨k, hk⟩ := exists_emits hN data
    refine ⟨k, hk, fun hpar => ?_, fun e hstrict he hbad hok => ?_⟩
    · rw [exec_unpack ht data ho, unpackBytes_ok hN hk hpar]
      rfl
    · rw [exec_unpack ht data ho, hstrict, unpackBytes_parity hN hk he hbad hok]
      rfl

/-- Settles O29: by what UNPACK's result can hold, a fault's empty data included. -/
theorem unpackOutputBounds : Obligations.UnpackOutputBounds := by
  intro s tt P data ho ht
  obtain ⟨hchars, hlen⟩ := unpackResult_data ht s.params.strictParity data
  refine ⟨_, exec_unpack ht data ho, fun c hc => ?_, hlen⟩
  obtain ⟨halpha, hne⟩ := hchars c hc
  exact bounds_of_inAlphabet halpha hne

/-- Settles O30: the range check decides, and PACK's bytes are the groups of the characters. -/
theorem packAnswersGroups : Obligations.PackAnswersGroups := by
  intro s tt data ho
  refine ⟨fun htt => ?_, fun P ht => ⟨fun i c hi hbad hlow => ?_, fun hc => ?_⟩⟩
  · rw [exec_badTrack (by simp [Instr.trackLegal, htt]), State.raiseFault_idle ho]
  · rw [exec_pack ht data ho, packResult_charRange hi hbad hlow]
  · obtain ⟨hlen, -, hfill⟩ := packBytes_spec ht hc
    refine ⟨packBytes P data, ?_, hlen, fun i c hi => charAt_packBytes ht hc hi, hfill⟩
    rw [exec_pack ht data ho, packResult_ok hc]

/-- Settles O33: the first L(t) is where UNPACK of the packed string stops. -/
theorem roundTripTruncatesAtLow : Obligations.RoundTripTruncatesAtLow := by
  intro tt P chars k ht hc hk hne
  obtain ⟨hlt, -⟩ := List.getElem?_eq_some_iff.1 hk
  exact ⟨_, exec_pack_unpack ht hc hlt.le hne fun c hcget => by simpa [hk] using hcget.symm⟩

end Sys2Proof
end

section
/-! PROOFS. The framing family: what HDRDEC, SEND, RECV, READ and FLUSH answer, and the round trip from SEND
to RECV and to READ. -/

namespace Sys2Proof.Machine

/-! ### HDRDEC -/

/-- R72: the fields of a header byte as digits of its value. -/
theorem header_digits (h : Byte) :
    (hdrSos h).toNat = h.toNat / 128 ∧ (hdrEos h).toNat = h.toNat / 64 % 2 ∧ hdrLen h = h.toNat % 64 := by
  have hlen := hdrLen_le h
  have hsos := Bool.toNat_le (hdrSos h)
  have heos := Bool.toNat_le (hdrEos h)
  have hval : h.toNat = 128 * (hdrSos h).toNat + 64 * (hdrEos h).toNat + hdrLen h := by
    rw [← hdr_toNat _ _ hlen, hdr_of_fields]
  omega

/-- R110: HDRDEC of one byte, in one equation. -/
theorem exec_hdrdec (h : Byte) (s : State) :
    exec (.hdrdec [h]) s = .next (s.ret .ok [BitVec.ofNat 8 (h.toNat / 128),
      BitVec.ofNat 8 (h.toNat / 64 % 2), BitVec.ofNat 8 (h.toNat % 64)] false) := by
  obtain ⟨hsos, heos, hlen⟩ := header_digits h
  rw [← hsos, ← heos, ← hlen]
  rfl

/-! ### SEND -/

/-- R112: SEND on an open transport: the packets of its message, the draws of their padding, and OK. -/
theorem exec_send_ready {s : State} (hs : s.Ready) (m : List Byte) :
    exec (.send m) s = .next { s with
      txlog := s.txlog ++ sentPackets m s.draws (packetCount m)
      draws := s.draws + (63 * packetCount m - m.length)
      results := s.results ++ [{ code := .ok, data := [], pe := false, info := 0 }] } := by
  obtain ⟨hop, hopen⟩ := hs
  rw [exec_send, onTransport_open hopen, sendAll_eq, State.ret_idle]
  exact hop

/-- R114: the headers of the packets SEND emitted do not depend on the draws. -/
theorem sentPackets_headers (m : List Byte) (d K : Nat) :
    (sentPackets m d K).map Packet.header = (List.range K).map (sendHeader m) := by
  induction K with
  | zero => rfl
  | succ K ih => rw [sentPackets, List.map_append, ih, List.range_succ, List.map_append]; rfl

/-- R72: the header byte from its value. -/
theorem hdr_eq_ofNat (sos eos : Bool) {len : Nat} (h : len ≤ 63) :
    hdr sos eos len = BitVec.ofNat 8 (128 * sos.toNat + 64 * eos.toNat + len) := by
  rw [← hdr_toNat sos eos h, BitVec.ofNat_toNat, BitVec.setWidth_eq]

/-- R114: the header of packet `k` from its place in the message and the length of its chunk. -/
theorem sendHeader_eq (m : List Byte) (k : Nat) :
    sendHeader m k = BitVec.ofNat 8 (128 * (k == 0).toNat + 64 * (k == packetCount m - 1).toNat +
      min 63 (m.length - 63 * k)) := by
  rw [sendHeader, hdr_eq_ofNat _ _ (chunk_length_le m k), chunk_length]

/-- R114: a message that fits in one packet has the one header 0xC0 + |m|. -/
theorem sendHeaders_one {m : List Byte} (h : m.length ≤ 63) :
    (List.range (packetCount m)).map (sendHeader m) = [BitVec.ofNat 8 (0xC0 + m.length)] := by
  have hK : packetCount m = 1 := by unfold packetCount; omega
  simp [hK, sendHeader_eq, h]

/-- R114: the headers of a message of `mid + 2` packets. -/
theorem sendHeaders_many {m : List Byte} {mid len : Nat} (h1 : 1 ≤ len) (h63 : len ≤ 63)
    (hm : m.length = 63 * (mid + 1) + len) :
    (List.range (packetCount m)).map (sendHeader m) =
      0xBF#8 :: (List.replicate mid 0x3F#8 ++ [BitVec.ofNat 8 (0x40 + len)]) := by
  have hK : packetCount m = mid + 2 := by unfold packetCount; omega
  have hfirst : sendHeader m 0 = 0xBF#8 := by
    have hfull : min 63 (m.length - 63 * 0) = 63 := by omega
    rw [sendHeader_eq, hfull, hK]
    rfl
  have hmiddle (k : Nat) (hk : k < mid) : sendHeader m (k + 1) = 0x3F#8 := by
    have hfull : min 63 (m.length - 63 * (k + 1)) = 63 := by omega
    have hnotLast : (k + 1 == packetCount m - 1) = false := by rw [beq_eq_false_iff_ne]; omega
    rw [sendHeader_eq, hfull, hnotLast]
    rfl
  have hlast : sendHeader m (mid + 1) = BitVec.ofNat 8 (0x40 + len) := by
    have hrest : min 63 (m.length - 63 * (mid + 1)) = len := by omega
    rw [sendHeader_eq, hrest, hK]
    simp
  have hmiddles : (List.range mid).map (sendHeader m ∘ Nat.succ) = List.replicate mid 0x3F#8 :=
    List.eq_replicate_iff.2 ⟨by simp, by simpa using hmiddle⟩
  rw [hK, List.range_succ, List.range_succ_eq_map, List.map_append, List.map_cons, List.map_map, hfirst,
    hmiddles, List.map_singleton, hlast, List.cons_append]

/-! ### RECV and READ 0 -/

/-- R46, R117(d): an operation that has answered leaves the other answers with the transport. -/
theorem serve_ret {s : State} (hp : s.pktIn = []) (c : Code) (d : List Byte) (b : Bool)
    (as : List Answer) : State.serve as (s.ret c d b) = { s.ret c d b with pktIn := as } :=
  serve_idle (State.ret_op c d b s) hp

/-- R116: an operation that has just begun a receive, on answers that begin with those of one receive. -/
theorem serveAll_receiveEnds {as rest : List Answer} {rc : ReceiveCode} {m : List Byte}
    (h : ReceiveEnds as rc m) {p : Pending} {tc : TimeoutClass} (hp : p.receive = Receive.start tc)
    {s : State} (hpkt : s.pktIn = as ++ rest) :
    (s.await p).serveAll = State.serve rest
      (State.receiveEnded p rc m ((State.attemptsMade as.length tc { s with pktIn := [] }).await p)) := by
  rw [State.serveAll, State.await_pktIn, hpkt]
  exact serve_receiveEnds h hp rest { s with pktIn := [] }

/-- R116, R117, R118: RECV on the answers of one receive. -/
theorem exec_recv_receiveEnds {as rest : List Answer} {rc : ReceiveCode} {m : List Byte}
    (h : ReceiveEnds as rc m) {s : State} (hs : s.Ready) (hpkt : s.pktIn = as ++ rest) (c : TimeoutClass) :
    exec (.recv c []) s = .next { s with
      pktIn := rest
      attempts := s.attempts ++ List.replicate as.length c
      results := s.results ++ [{ code := rc.code, data := m, pe := false, info := 0 }] } := by
  obtain ⟨hop, hopen⟩ := hs
  rw [exec_recv, onTransport_open hopen, serveAll_receiveEnds h rfl hpkt, State.receiveEnded, serve_ret rfl,
    hop]
  rfl

/-- R121: the end of READ 0's one receive drains RXBUF. -/
theorem receiveEnded_read_zero (inc : Bool) (r : Receive) (rc : ReceiveCode) (m : List Byte) (s : State) :
    s.receiveEnded (.read 0 inc r) rc m =
      (s.setRxbuf []).ret (readCode (inc || rc == .incomplete)) (s.rxbuf ++ m) false := by
  rw [State.receiveEnded, State.readReceived, if_pos rfl]

/-- R121, R124: the code of READ 0 from that of its one receive. -/
theorem readCode_one (rc : ReceiveCode) :
    readCode (false || rc == .incomplete) = if rc = .incomplete then .incomplete else .ok := by
  cases rc <;> rfl

/-- R121: READ 0 on the answers of one receive. -/
theorem exec_read_zero_receiveEnds {as rest : List Answer} {rc : ReceiveCode} {m : List Byte}
    (h : ReceiveEnds as rc m) {s : State} (hs : s.Ready) (hpkt : s.pktIn = as ++ rest) :
    exec (.read 0 []) s = .next { s with
      rxbuf := []
      pktIn := rest
      attempts := s.attempts ++ List.replicate as.length .short
      results := s.results ++ [{
        code := if rc = .incomplete then .incomplete else .ok
        data := s.rxbuf ++ m
        pe := false
        info := 0 }] } := by
  obtain ⟨hop, hopen⟩ := hs
  rw [exec_read, onTransport_open hopen, State.readStart, if_pos rfl, serveAll_receiveEnds h rfl hpkt,
    receiveEnded_read_zero, serve_ret rfl, readCode_one, hop]
  rfl

/-! ### READ n for n > 0 -/

theorem attemptsMade_attemptsMade (j k : Nat) (tc : TimeoutClass) (s : State) :
    (s.attemptsMade j tc).attemptsMade k tc = s.attemptsMade (j + k) tc := by
  simp only [State.attemptsMade, List.append_assoc, ← List.replicate_add]

/-- R122: with n bytes buffered READ's loop ends with the first n of them. -/
theorem readLoop_enough {n : Nat} {s : State} (h : n ≤ s.rxbuf.length) (inc : Bool) :
    s.readLoop n inc = (s.setRxbuf (s.rxbuf.drop n)).ret (readCode inc) (s.rxbuf.take n) false :=
  if_neg h.not_gt

/-- R122: with fewer than n bytes buffered READ's loop begins a receive of class LONG. -/
theorem readLoop_fewer {n : Nat} {s : State} (h : s.rxbuf.length < n) (inc : Bool) :
    s.readLoop n inc = s.await (.read n inc (Receive.start .long)) :=
  if_pos h

/-- R120, R122: READ n runs through the receives it goes on after, and is at the head of its loop. -/
theorem exec_read_goesOn {s : State} (hs : s.Ready) {n : Nat} (hn : 0 < n) {rs : List Received}
    (hrs : ReadGoesOn s n rs) {bs : List Answer} (hpkt : s.pktIn = allAnswers rs ++ bs) :
    exec (.read n []) s = .next (State.serve bs
      (State.readLoop n (anyIncomplete rs) (State.gained rs { s with pktIn := [] }))) := by
  have hrs' : ReadGoesOn { s with pktIn := [] } n rs := ⟨hrs.ended, hrs.wanted, hrs.quiet⟩
  rw [exec_read, onTransport_open hs.2, readStart_pos hn, hpkt, serve_readGoesOn hn hrs', Bool.false_or]

/-- R122, R124: READ n when its receives have brought n bytes. -/
theorem exec_read_enough {s : State} (hs : s.Ready) {n : Nat} (hn : 0 < n) {rs : List Received}
    (hrs : ReadGoesOn s n rs) {rest : List Answer} (hpkt : s.pktIn = allAnswers rs ++ rest)
    (hlen : n ≤ (s.rxbuf ++ allBytes rs).length) :
    exec (.read n []) s = .next { s with
      rxbuf := (s.rxbuf ++ allBytes rs).drop n
      pktIn := rest
      attempts := s.attempts ++ List.replicate (allAnswers rs).length .long
      results := s.results ++ [{
        code := readCode (anyIncomplete rs)
        data := (s.rxbuf ++ allBytes rs).take n
        pe := false
        info := 0 }] } := by
  rw [exec_read_goesOn hs hn hrs hpkt, readLoop_enough hlen, serve_ret rfl, hs.1]
  rfl

/-- R118: a TIMEOUT that comes first of all is a receive that returned NOTHING. -/
theorem receiveEnds_timeout : ReceiveEnds [.timeout] .nothing [] :=
  ⟨[], by simp, .inr (.inl ⟨rfl, rfl, rfl, rfl⟩)⟩

/-- R123: under RETURN_SHORT a TIMEOUT ends READ n with all of RXBUF. -/
theorem serve_timeout_returnShort {n : Nat} (hn : 0 < n) (inc : Bool) (as : List Answer) {s : State}
    (hpol : s.params.readTimeoutPolicy = .returnShort) (hlen : s.rxbuf.length < n) :
    State.serve (.timeout :: as) (s.readLoop n inc) =
      State.serve as (((s.attemptsMade 1 .long).setRxbuf []).ret .short s.rxbuf false) := by
  rw [readLoop_fewer hlen, ← List.singleton_append, serve_receiveEnds receiveEnds_timeout rfl,
    State.receiveEnded, State.readReceived, if_neg hn.ne', if_pos ⟨rfl, hpol⟩, List.append_nil]
  rfl

/-- R123: under BLOCK a TIMEOUT leaves READ n at the head of its loop. -/
theorem serve_timeout_block {n : Nat} (hn : 0 < n) (inc : Bool) (as : List Answer) {s : State}
    (hpol : s.params.readTimeoutPolicy = .block) (hlen : s.rxbuf.length < n) :
    State.serve (.timeout :: as) (s.readLoop n inc) = State.serve as ((s.attempt .long).readLoop n inc) := by
  have hinc : (inc || ReceiveCode.nothing == .incomplete) = inc := Bool.or_false inc
  rw [readLoop_fewer hlen, ← List.singleton_append, serve_receiveEnds receiveEnds_timeout rfl,
    State.receiveEnded, State.readReceived, if_neg hn.ne', if_neg, List.append_nil, hinc]
  · exact congrArg (State.serve as) (readLoop_await n inc _ (s.attempt .long))
  · simp [State.attemptsMade, hpol]

/-- R123: under BLOCK a row of TIMEOUT answers only makes attempts. -/
theorem serve_timeouts_block {n : Nat} (hn : 0 < n) (inc : Bool) (k : Nat) {s : State}
    (hpol : s.params.readTimeoutPolicy = .block) (hlen : s.rxbuf.length < n) :
    State.serve (List.replicate k .timeout) (s.readLoop n inc) =
      (s.attemptsMade k .long).readLoop n inc := by
  induction k generalizing s with
  | zero => rw [attemptsMade_zero]; rfl
  | succ k ih =>
    rw [List.replicate_succ, serve_timeout_block hn inc _ hpol hlen, ih (s := s.attempt .long) hpol hlen,
      attempt_attemptsMade]

/-! ### What SEND emits, delivered -/

/-- A list in which a test holds at one index only has one element that passes it. -/
theorem length_filter_eq_one {α : Type} {f : α → Bool} {l : List α} {i : Nat} (hi : i < l.length)
    (h : ∀ k a, l[k]? = some a → f a = decide (k = i)) : (l.filter f).length = 1 := by
  induction l generalizing i with
  | nil => cases hi
  | cons x xs ih =>
    have hx := h 0 x rfl
    have hxs (k : Nat) (a : α) (ha : xs[k]? = some a) : f a = decide (k + 1 = i) := h (k + 1) a ha
    cases i with
    | zero =>
      have hnone : xs.filter f = [] := List.filter_eq_nil_iff.2 fun a ha => by
        obtain ⟨k, hk⟩ := List.mem_iff_getElem?.1 ha
        simp [hxs k a hk]
      rw [List.filter_cons_of_pos hx, hnone, List.length_singleton]
    | succ i =>
      rw [List.filter_cons_of_neg (by simp [hx])]
      exact ih (by simpa using hi) fun k a ha => by simpa using hxs k a ha

/-- R119: of the packets that carry a message, one has SOS set and one has EOS set. -/
theorem carries_one_sos_eos {ps : List Packet} {m : List Byte} (h : Carries ps m) :
    (ps.filter fun p => hdrSos p.header).length = 1 ∧ (ps.filter fun p => hdrEos p.header).length = 1 := by
  have hpos : 0 < ps.length := by rw [h.count]; omega
  have hsos (k : Nat) (p : Packet) (hk : ps[k]? = some p) : hdrSos p.header = decide (k = 0) :=
    (h.header k p hk).1
  have heos (k : Nat) (p : Packet) (hk : ps[k]? = some p) :
      hdrEos p.header = decide (k = ps.length - 1) := by
    rw [(h.header k p hk).2.1, decide_eq_decide]; omega
  exact ⟨length_filter_eq_one hpos hsos, length_filter_eq_one (by omega) heos⟩

/-- R126: READ k of packets that carry a message of k bytes or more, RXBUF empty. -/
theorem exec_read_carries {ps : List Packet} {m : List Byte} (h : Carries ps m) {u : State} (hu : u.Ready)
    (hbuf : u.rxbuf = []) {k : Nat} (hk : 0 < k) (hm : k ≤ m.length) {rest : List Answer}
    (hpkt : u.pktIn = ps.map .packet ++ rest) :
    exec (.read k []) u = .next { u with
      rxbuf := m.drop k
      pktIn := rest
      attempts := u.attempts ++ List.replicate ps.length .long
      results := u.results ++ [{ code := .ok, data := m.take k, pe := false, info := 0 }] } := by
  let rs : List Received := [⟨ps.map .packet, .ok, m⟩]
  have hans : allAnswers rs = ps.map .packet := by simp [rs, allAnswers]
  have hbytes : u.rxbuf ++ allBytes rs = m := by simp [rs, hbuf, allBytes]
  have hrs : ReadGoesOn u k rs := by
    refine ⟨?ended, ?wanted, ?quiet⟩
    case ended => simpa [rs] using carries_receiveEnds h
    case wanted => simpa [rs, hbuf, allBytes] using hk
    case quiet => simp [rs]
  have hread := exec_read_enough hu hk hrs (hans ▸ hpkt) (hbytes.symm ▸ hm)
  rwa [hbytes, hans, List.length_map] at hread

end Sys2Proof.Machine

namespace Sys2Proof
open Machine

/-- Settles O34: the header's fields are digits of the byte. -/
theorem hdrdecSplitsHeader : Obligations.HdrdecSplitsHeader := by
  intro s hop
  refine ⟨fun h => ?_, fun data hdata => ?_⟩
  · rw [exec_hdrdec, State.ret_idle hop]
  · rw [exec_hdrdec_badOperand hdata, State.raiseFault_idle hop]

/-- Settles O35: the packets of SEND's loop carry the message. -/
theorem sendEmitsMessage : Obligations.SendEmitsMessage := by
  intro s m hs
  refine ⟨_, sentPackets_carries m s.draws, ?_⟩
  rw [exec_send_ready hs, sentPackets_length]

/-- Settles O36: one packet up to 63 bytes, and otherwise a full first, full middle ones and a last. -/
theorem sendHeaders : Obligations.SendHeaders := by
  intro s m hs
  refine ⟨_, _, exec_send_ready hs m, rfl, fun hshort => ?_, fun hlong => ?_⟩
  · rw [sentPackets_headers, sendHeaders_one hshort]
  · obtain ⟨mid, len, h1, h63, hm⟩ : ∃ mid len, 1 ≤ len ∧ len ≤ 63 ∧ m.length = 63 * (mid + 1) + len :=
      ⟨(m.length - 64) / 63, (m.length - 64) % 63 + 1, by omega, by omega, by omega⟩
    refine ⟨mid, len, h1, h63, hm, ?_⟩
    rw [sentPackets_headers, sendHeaders_many h1 h63 hm]

/-- Settles O37: the receive of RECV ends as the answers say. -/
theorem recvAnswersOneReceive : Obligations.RecvAnswersOneReceive := by
  refine ⟨fun s c as rest rc m hs h hpkt => exec_recv_receiveEnds h hs hpkt c, fun s c data hop hdata => ?_⟩
  rw [(exec_badOperand hdata s).1, State.raiseFault_idle hop]

/-- Settles O40: the one receive of READ 0 ends as the answers say. -/
theorem readZeroDrains : Obligations.ReadZeroDrains :=
  fun _ _ _ _ _ hs h hpkt => exec_read_zero_receiveEnds h hs hpkt

/-- Settles O41: after the receives READ's loop finds n bytes buffered. -/
theorem readReturnsFirstBytes : Obligations.ReadReturnsFirstBytes :=
  fun _ _ _ _ hs hn hrs hpkt hlen => exec_read_enough hs hn hrs hpkt hlen

/-- Settles O42: after the receives READ's loop finds fewer than n bytes buffered, and the policy decides
what the next TIMEOUT does. -/
theorem readWhenTransportIsQuiet : Obligations.ReadWhenTransportIsQuiet := by
  refine ⟨fun s n rs rest hs hn hpol hrs hpkt hlen => ?returnShort,
    fun s n rs k hs hn hpol hrs hpkt hlen => ?block⟩
  case returnShort =>
    rw [exec_read_goesOn hs hn hrs hpkt,
      serve_timeout_returnShort (s := State.gained rs { s with pktIn := [] }) hn _ rest hpol hlen,
      serve_ret rfl, State.gained, attemptsMade_attemptsMade, hs.1]
    rfl
  case block =>
    rw [exec_read_goesOn hs hn hrs hpkt,
      serve_timeouts_block (s := State.gained rs { s with pktIn := [] }) hn _ k hpol hlen,
      readLoop_fewer hlen, State.gained, attemptsMade_attemptsMade]
    rfl

/-- Settles O45: FLUSH answers OK only. -/
theorem flushHasNoEffect : Obligations.FlushHasNoEffect := by
  intro s hop
  refine ⟨congrArg Host.Outcome.next (State.ret_idle hop .ok [] false), fun data hdata => ?_⟩
  rw [(exec_badOperand hdata s).2.2, State.raiseFault_idle hop]

/-- Settles O46: packets that carry a message are the answers of one receive that ends with it. -/
theorem receiveUndoesSend : Obligations.ReceiveUndoesSend := by
  intro m
  refine ⟨fun s hs => ⟨_, _, exec_send_ready hs m, rfl, sentPackets_carries m s.draws⟩, fun ps h => ?_⟩
  obtain ⟨hsos, heos⟩ := carries_one_sos_eos h
  refine ⟨h.count, fun p _ => p.length_eq, hsos, heos, fun u c rest hu hpkt => ?_⟩
  have hrecv := exec_recv_receiveEnds (carries_receiveEnds h) hu hpkt c
  rwa [List.length_map] at hrecv

/-- Settles O47: READ k goes on after the one receive that brings the message, and has its k bytes. -/
theorem loopbackReadReturnsMessage : Obligations.LoopbackReadReturnsMessage := by
  intro s m hs
  refine ⟨_, _, exec_send_ready hs m, rfl, fun u k rest hu hbuf hk hm hpkt =>
    ⟨exec_read_carries (sentPackets_carries m s.draws) hu hbuf hk hm hpkt, ?_⟩⟩
  rintro rfl
  exact ⟨List.take_length, List.drop_length⟩

end Sys2Proof
end

section
/-! PROOFS. The exceptions family: which operations answer a fault, and that a fault does nothing else. -/

namespace Sys2Proof.Machine

/-! ### Which operations answer no fault -/

/-- R28, R145: from `s` to `t` at most one result was answered; it is no fault, and its pe is 0. -/
def AnswersNoFault (s t : State) : Prop :=
  t.results = s.results ∨ ∃ r, t.results = s.results ++ [r] ∧ r.code.isFault = false ∧ r.pe = false

theorem AnswersNoFault.not_fault {s t : State} {r : Result} (h : AnswersNoFault s t)
    (hr : t.results = s.results ++ [r]) : r.code.isFault = false := by
  obtain hsame | ⟨q, hq, hfault, -⟩ := h
  · simp [hsame] at hr
  · obtain rfl : q = r := by simpa [hq] using hr
    exact hfault

/-- R145: an operation in progress answers no fault. -/
theorem step_waiting_answersNoFault {s t : State} {p : Pending} (ho : s.op = some p)
    (h : step s = .next t) : AnswersNoFault s t := by
  obtain ⟨q, -, -, ⟨-, rfl⟩ | ⟨-, rfl⟩⟩ | ⟨hidle, -⟩ := step_cases h
  · exact (accept_results q _ s).imp And.right And.right
  · exact serve_results s.pktIn { s with pktIn := [] }
  · rw [ho] at hidle; cases hidle

/-- R112, R145: SEND that runs answers OK. -/
theorem sendAll_answersNoFault (m : List Byte) (s : State) :
    AnswersNoFault s ((s.sendAll m).ret .ok [] false) := by
  rw [sendAll_eq]
  exact .inr ⟨_, rfl, ok_not_fault, rfl⟩

/-- R145: an instruction that does more than answer is a SEND, RECV or READ that uses the transport, and
answers no fault. -/
theorem exec_answersOnly_or_noFault {i : Instr} {s t : State} (h : exec i s = .next t) :
    (∃ r, AnswersOnly i s t r) ∨ AnswersNoFault s t := by
  obtain hans | ⟨m, -, -, rfl⟩ | ⟨c, -, -, rfl⟩ | ⟨n, -, -, rfl⟩ := exec_cases h
  · exact .inl hans
  · exact .inr (sendAll_answersNoFault m s)
  · exact .inr (serve_results s.pktIn { s.await (.recv (Receive.start c)) with pktIn := [] })
  · exact .inr (readAll_results n s)

/-! ### What a fault does -/

/-- R143, R145: an instruction that answers a fault only answers. -/
theorem answersOnly_of_fault {i : Instr} {s t : State} {r : Result} (h : exec i s = .next t)
    (hr : t.results = s.results ++ [r]) (hf : r.code.isFault = true) : AnswersOnly i s t r := by
  obtain ⟨q, hq⟩ | hno := exec_answersOnly_or_noFault h
  · obtain rfl : q = r := by simpa [hq.state] using hr
    exact hq
  · rw [hno.not_fault hr] at hf; cases hf

/-- R143: between operations a fault changes the results only, and its result has no data and pe = 0. -/
theorem AnswersOnly.fault_frame {i : Instr} {s t : State} {r : Result} (h : AnswersOnly i s t r)
    (ho : s.op = none) (hf : r.code.isFault = true) :
    t = { s with results := s.results ++ [r] } ∧ r.data = [] ∧ r.pe = false :=
  ⟨h.state.trans (State.deliver_idle ho r), h.legal.fault hf⟩

/-- R142, R143: a command that answers a fault between operations, be it BAD_OPCODE or its instruction's,
changes the results only. -/
theorem runCommand_fault_frame {c : Command} {s t : State} {r : Result} (ho : s.op = none)
    (h : runCommand c s = .next t) (hr : t.results = s.results ++ [r]) (hf : r.code.isFault = true) :
    t = { s with results := s.results ++ [r] } ∧ r.data = [] ∧ r.pe = false := by
  cases hd : decode c with
  | error e =>
    rw [runCommand_error hd, State.raiseFault_idle ho] at h
    cases h
    obtain rfl : _ = r := by simpa using hr
    exact ⟨rfl, rfl, rfl⟩
  | ok i =>
    rw [runCommand_ok hd] at h
    exact (answersOnly_of_fault h hr hf).fault_frame ho hf

end Sys2Proof.Machine

namespace Sys2Proof
open Machine

/-- Settles O16: a step takes the command, and a command that answers a fault changes the results only. -/
theorem faultHasNoOtherEffect : Obligations.FaultHasNoOtherEffect := by
  intro s t c rest r ho hh hstep hr hf
  rw [step_command ho hh] at hstep
  exact runCommand_fault_frame (s := { s with hostIn := rest }) ho hstep hr hf

/-- Settles O20: the faults of the instructions that only answer, and of no other operation. -/
theorem faultsOfWellFormedInstructions : Obligations.FaultsOfWellFormedInstructions :=
  ⟨fun _ _ _ _ _ hw h hr hf => (answersOnly_of_fault h hr hf).fault hf hw,
    fun _ _ _ _ ho h hr => (step_waiting_answersNoFault ho h).not_fault hr⟩

/-- Settles O44: an operand of the wrong length raises BAD_OPERAND before the transport is asked for. -/
theorem operandsRejected : Obligations.OperandsRejected := by
  intro s data ho
  rw [← State.raiseFault_idle ho .badOperand 0]
  refine ⟨fun hdata => ?_, fun hlen => exec_hdrdec_badOperand hlen s⟩
  obtain ⟨hrecv, hread, hflush⟩ := exec_badOperand hdata s
  exact ⟨hread, hrecv, hflush⟩

end Sys2Proof
end

section
/-! PROOFS. The reset family: RESET as a step of the host. -/

namespace Sys2Proof.Machine

/-- R160: what the reset input does to the state. -/
theorem State.resetInput_eq (s : State) : s.resetInput = { s with rxbuf := [] } := rfl

/-- R46, R161: between operations a step takes the RESET presented and applies the reset input. -/
theorem step_reset {s : State} {rest : List HostInput} (ho : s.op = none)
    (hh : s.hostIn = .reset :: rest) : step s = .next { s with hostIn := rest }.resetInput := by
  simp only [step, ho, hh]

end Sys2Proof.Machine

namespace Sys2Proof
open Machine

/-- Settles O7: the step takes the RESET, and the reset input empties RXBUF only. -/
theorem resetInputEmptiesRxbuf : Obligations.ResetInputEmptiesRxbuf := by
  intro s rest ho hh
  rw [step_reset ho hh, State.resetInput_eq]

end Sys2Proof
end

section
/-! PROOFS. The other family: the decoder and the parity values, the step and what it leaves alone, the
operations that wait, and the invariant. -/

namespace Sys2Proof

/-! ### The decoder -/

/-- R60 to R68, R71: the decoder reads back each instruction that was encoded. -/
@[simp] theorem decode_encode (i : Instr) : decode (encode i) = .ok i := by
  cases i <;> simp [decode, encode]

/-- R76: the count of READ is the command's. -/
theorem count_of_decode_read {c : Command} {n : Nat} {data : List Byte} (h : decode c = .ok (.read n data)) :
    n = c.n := by
  obtain ⟨-, hi⟩ := decode_ok h
  simp only [reduceCtorEq, and_false, exists_false, false_or, or_false, Instr.read.injEq] at hi
  obtain ⟨-, -, hn, -⟩ := hi
  exact hn

/-- R76: of the decoder's arms only READ's has the count in it. -/
theorem decode_setCount {c : Command} (n : Nat) (h : ∀ k data, decode c ≠ .ok (.read k data)) :
    decode { c with n := n } = decode c := by
  obtain ⟨w, data, k⟩ := c
  unfold decode at h ⊢
  dsimp only at h ⊢
  split
  · rfl
  · next hr =>
    rw [if_neg hr] at h
    generalize (opMaj w).toNat = maj at h ⊢
    split
    case h_6 =>
      have hmin : opMin w ≠ 0#2 := fun hmin => h k data (if_pos hmin)
      rw [if_neg hmin, if_neg hmin]
    all_goals rfl

end Sys2Proof

namespace Sys2Proof.Machine

/-! ### Parity -/

theorem popcount_succ (D v : Nat) : popcount (D + 1) v = popcount D v + (v.testBit D).toNat := by
  rw [popcount, List.range_succ, List.countP_append, List.countP_singleton, popcount]
  cases v.testBit D <;> rfl

/-- R11: the low `D` bits decide how many of them are 1. -/
theorem popcount_congr {D v w : Nat} (h : v % 2 ^ D = w % 2 ^ D) : popcount D v = popcount D w := by
  refine List.countP_congr fun i hi => ?_
  have hbit := congrArg (Nat.testBit · i) h
  simpa [List.mem_range.1 hi] using hbit

/-- R83: the parity bit as a number. -/
theorem oddpar_toNat (D d : Nat) : (oddpar D d).toNat = 1 ^^^ (popcount D d % 2) := by
  rcases Nat.mod_two_eq_zero_or_one (popcount D d) with h | h <;> simp [oddpar, h]

/-- R41, R83: the number of 1 bits of a group, from its data bits and its parity bit. -/
theorem popcount_group (D d : Nat) (b : Bool) :
    popcount (D + 1) (d % 2 ^ D ||| b.toNat <<< D) = popcount D d + b.toNat := by
  have hlow : (d % 2 ^ D ||| b.toNat <<< D) % 2 ^ D = d % 2 ^ D := by
    rw [Nat.or_mod_two_pow, Nat.mod_mod, Nat.shiftLeft_eq, Nat.mul_mod_left, Nat.or_zero]
  have htop : (d % 2 ^ D ||| b.toNat <<< D).testBit D = b := by
    cases b <;> simp
  rw [popcount_succ, popcount_congr hlow, htop]

/-! ### Whole states -/

theorem State.pktIn_eta {s : State} {as : List Answer} (h : s.pktIn = as) : { s with pktIn := as } = s := by
  subst h; rfl

theorem onTransport_next {s t u : State} (h : s.onTransport u = .next t) : s.transportOpen = true ∧ t = u := by
  cases ho : s.transportOpen <;> simp_all

theorem onTransport_not_refused (s u : State) (r : Refusal) : s.onTransport u ≠ .refused r := by
  cases ho : s.transportOpen <;> simp [ho]

/-! ### The kinds of instruction -/

/-- R48: the instruction only answers a result, and that depends on the state by STRICT_PARITY only. -/
def AnswersAs (i : Instr) (f : Bool → Result) : Prop :=
  ∀ s : State, exec i s = .next (s.deliver (f s.params.strictParity))

/-- R116, R120: how RECV and READ begin, before they look at the transport's answers. -/
inductive Opening : Instr → (State → State) → Prop where
  | recv (c : TimeoutClass) : Opening (.recv c []) (State.await (.recv (Receive.start c)))
  | read (n : Nat) : Opening (.read n []) (State.readStart n)

theorem Opening.exec_eq {i : Instr} {g : State → State} (hg : Opening i g) (s : State) :
    exec i s = s.onTransport (g s).serveAll := by
  cases hg with
  | recv c => exact exec_recv c s
  | read n => exact exec_read n s

/-- R48, R163: an instruction only answers, or sends, or waits for the transport. -/
theorem instr_kinds (i : Instr) :
    (∃ f, AnswersAs i f) ∨ (∃ m, i = .send m) ∨ ∃ g, Opening i g := by
  have faults {c : Code} (h : ∀ s, exec i s = .next (s.raiseFault c 0)) : ∃ f, AnswersAs i f :=
    ⟨fun _ => { code := c, data := [], pe := false, info := 0 }, h⟩
  by_cases htrack : i.trackLegal = false
  · exact .inl (faults (exec_badTrack htrack))
  by_cases hshape : i.shapeLegal = false
  · exact .inl (faults (exec_illegalShape hshape))
  simp only [Bool.not_eq_false] at htrack hshape
  cases i with
  | unpack tt b =>
    obtain ⟨P, hP⟩ := Option.ne_none_iff_exists'.1 (mt tdp_none.1 (bne_iff_ne.1 htrack))
    refine .inl ⟨fun strict => unpackResult (unpackBytes P strict b), fun s => ?_⟩
    simp only [exec, execUnpack, hP]
    cases unpackBytes P s.params.strictParity b <;> rfl
  | pack tt chars =>
    obtain ⟨P, hP⟩ := Option.ne_none_iff_exists'.1 (mt tdp_none.1 (bne_iff_ne.1 htrack))
    refine .inl ⟨fun _ => packResult P chars, fun s => ?_⟩
    simp only [exec, execPack, hP, packResult]
    cases rangeFault P chars <;> rfl
  | hdrdec d =>
    obtain ⟨h, rfl⟩ := List.length_eq_one_iff.1 (beq_iff_eq.1 hshape)
    exact .inl ⟨fun _ => _, exec_hdrdec h⟩
  | send m => exact .inr (.inl ⟨m, rfl⟩)
  | recv c d =>
    obtain rfl := List.length_eq_zero_iff.1 (beq_iff_eq.1 hshape)
    exact .inr (.inr ⟨_, .recv c⟩)
  | read n d =>
    obtain rfl := List.length_eq_zero_iff.1 (beq_iff_eq.1 hshape)
    exact .inr (.inr ⟨_, .read n⟩)
  | flush d =>
    obtain rfl := List.length_eq_zero_iff.1 (beq_iff_eq.1 hshape)
    exact .inl ⟨fun _ => { code := .ok, data := [], pe := false, info := 0 }, fun _ => rfl⟩

/-- What an instruction that answers a next state did, by its kind. -/
theorem exec_next_kinds {i : Instr} {s t : State} (h : exec i s = .next t) :
    (∃ f, AnswersAs i f ∧ t = s.deliver (f s.params.strictParity)) ∨
      (∃ m, i = .send m ∧ s.transportOpen = true ∧ t = (s.sendAll m).ret .ok [] false) ∨
      ∃ g, Opening i g ∧ s.transportOpen = true ∧ t = (g s).serveAll := by
  rcases instr_kinds i with ⟨f, hf⟩ | ⟨m, rfl⟩ | ⟨g, hg⟩
  · rw [hf] at h
    cases h
    exact .inl ⟨f, hf, rfl⟩
  · exact .inr (.inl ⟨m, rfl, onTransport_next h⟩)
  · rw [hg.exec_eq] at h
    exact .inr (.inr ⟨g, hg, onTransport_next h⟩)

/-- What the beginning of RECV and READ keeps. -/
theorem Opening.frame {i : Instr} {g : State → State} (hg : Opening i g) (s : State) :
    (g s).txlog = s.txlog ∧ (g s).pktIn = s.pktIn ∧ (g s).transportOpen = s.transportOpen := by
  cases hg with
  | recv c => exact ⟨rfl, rfl, rfl⟩
  | read n =>
    obtain ⟨htx, -, -, -, hopen, -, hpkt⟩ := readStart_frame n s
    exact ⟨htx, hpkt, hopen⟩

/-- The beginning of RECV and READ does not look at the transport's answers. -/
theorem Opening.setPktIn {i : Instr} {g : State → State} (hg : Opening i g) (s : State) (as : List Answer) :
    g { s with pktIn := as } = { g s with pktIn := as } := by
  cases hg with
  | recv c => rfl
  | read n => simp only [State.readStart, State.readLoop]; split_ifs <;> rfl

/-- Nor does it look at TXLOG. -/
theorem Opening.setTxlog {i : Instr} {g : State → State} (hg : Opening i g) (s : State) (l : List Packet) :
    g { s with txlog := l } = { g s with txlog := l } := by
  cases hg with
  | recv c => rfl
  | read n => simp only [State.readStart, State.readLoop]; split_ifs <;> rfl

theorem Opening.pktIn_nil {i : Instr} {g : State → State} (hg : Opening i g) (s : State) :
    (g { s with pktIn := [] }).pktIn = [] := by
  rw [hg.setPktIn s []]

/-- R46: RECV and READ run on the answers listed. -/
theorem Opening.serveAll_eq {i : Instr} {g : State → State} (hg : Opening i g) (s : State) :
    (g s).serveAll = State.serve s.pktIn (g { s with pktIn := [] }) := by
  obtain ⟨-, hpkt, -⟩ := hg.frame s
  rw [State.serveAll, hpkt, hg.setPktIn s []]

/-! ### A step, case by case -/

/-- R21, R155: with nothing presented the block waits. -/
theorem step_idle {s : State} (ho : s.op = none) (hh : s.hostIn = []) : step s = .next s := by
  simp only [step, ho, hh]

theorem step_decoded {s : State} {c : Command} {rest : List HostInput} {i : Instr} (ho : s.op = none)
    (hh : s.hostIn = .command c :: rest) (hd : decode c = .ok i) :
    step s = exec i { s with hostIn := rest } := by
  rw [step_command ho hh, runCommand_ok hd]

theorem step_badOpcode {s : State} {c : Command} {rest : List HostInput} {e : DecodeError} (ho : s.op = none)
    (hh : s.hostIn = .command c :: rest) (hd : decode c = .error e) :
    step s = .next (State.raiseFault .badOpcode 0 { s with hostIn := rest }) := by
  rw [step_command ho hh, runCommand_error hd]

/-- R27: the answers that the operation `p` in progress runs on in a step: those listed, or else one draw
of the oracle. -/
def State.answers (p : Pending) (s : State) : List Answer :=
  if s.pktIn = [] then [Config.pktInDraw s.attempts.length p.receive.tc] else s.pktIn

/-- R27, R155: a step of the operation in progress, in one equation. -/
theorem step_waiting {s : State} {p : Pending} (ho : s.op = some p) (ht : s.transportOpen = true) :
    step s = .next (State.serve (s.answers p) { s with pktIn := [] }) := by
  by_cases hp : s.pktIn = []
  · rw [step_waiting_oracle ho ht hp, State.answers, if_pos hp, State.pktIn_eta hp, serve_cons ho]
    rfl
  · rw [step_waiting_listed ho ht hp, State.answers, if_neg hp]
    rfl

theorem step_waiting_next {s t : State} {p : Pending} (ho : s.op = some p) (h : step s = .next t) :
    s.transportOpen = true ∧ t = State.serve (s.answers p) { s with pktIn := [] } := by
  rcases Bool.eq_false_or_eq_true s.transportOpen with ht | ht
  · rw [step_waiting ho ht] at h
    cases h
    exact ⟨ht, rfl⟩
  · rw [step_waiting_closed ho ht] at h; cases h

/-! ### When the machine stops -/

theorem exec_not_refused (i : Instr) (s : State) (r : Refusal) : exec i s ≠ .refused r := by
  rcases instr_kinds i with ⟨f, hf⟩ | ⟨m, rfl⟩ | ⟨g, hg⟩
  · simp [hf s]
  · exact onTransport_not_refused _ _ r
  · rw [hg.exec_eq]; exact onTransport_not_refused _ _ r

/-- R46: a step that need not answer a next state is that of the operation in progress, or runs an
instruction. -/
theorem step_next_or_onTransport_or_exec (s : State) :
    (∃ t, step s = .next t) ∨ (∃ p u, s.op = some p ∧ step s = s.onTransport u) ∨
      ∃ c rest i, s.hostIn = .command c :: rest ∧ decode c = .ok i ∧
        step s = exec i { s with hostIn := rest } := by
  rcases Option.eq_none_or_eq_some s.op with ho | ⟨p, ho⟩
  · rcases hh : s.hostIn with _ | ⟨_ | c, rest⟩
    case nil => exact .inl ⟨_, step_idle ho hh⟩
    case cons.reset => exact .inl ⟨_, step_reset ho hh⟩
    case cons.command c =>
      cases hd : decode c with
      | error e => exact .inl ⟨_, step_badOpcode ho hh hd⟩
      | ok i => exact .inr (.inr ⟨c, rest, i, rfl, hd, step_decoded ho hh hd⟩)
  · exact .inr (.inl ⟨p, _, ho, by simp only [step, ho]; rfl⟩)

theorem step_not_refused (s : State) (r : Refusal) : step s ≠ .refused r := by
  obtain ⟨t, h⟩ | ⟨p, u, -, h⟩ | ⟨c, rest, i, -, -, h⟩ := step_next_or_onTransport_or_exec s
  · simp [h]
  · rw [h]; exact onTransport_not_refused s u r
  · rw [h]; exact exec_not_refused i _ r

/-- R163, I19: a step that stops. -/
theorem step_fault {s : State} {f : Fault} (h : step s = .fault f) :
    f = .transportNotOpen ∧ s.transportOpen = false ∧
      ((∃ p, s.op = some p) ∨ ∃ c rest, s.hostIn = .command c :: rest ∧
        ((∃ m, decode c = .ok (.send m)) ∨ (∃ tc, decode c = .ok (.recv tc [])) ∨
          ∃ n, decode c = .ok (.read n []))) := by
  obtain ⟨t, hs⟩ | ⟨p, u, ho, hs⟩ | ⟨c, rest, i, hh, hd, hs⟩ := step_next_or_onTransport_or_exec s
  · rw [hs] at h; cases h
  · rw [hs] at h
    cases ht : s.transportOpen with
    | true => rw [onTransport_open ht] at h; cases h
    | false =>
      rw [onTransport_closed ht] at h
      cases h
      exact ⟨rfl, rfl, .inl ⟨p, ho⟩⟩
  · rw [hs] at h
    obtain ⟨hf, hclosed, huses⟩ := exec_fault h
    exact ⟨hf, hclosed, .inr ⟨c, rest, hh, by simpa [hd] using huses⟩⟩

/-- R163: what uses the transport has no step while it is not open. -/
theorem exec_closed {s : State} (ht : s.transportOpen = false) :
    (∀ m, exec (.send m) s = .fault .transportNotOpen) ∧
      ∀ i g, Opening i g → exec i s = .fault .transportNotOpen :=
  ⟨fun m => by rw [exec_send, onTransport_closed ht], fun i g hg => by rw [hg.exec_eq, onTransport_closed ht]⟩

/-! ### What a step leaves alone -/

/-- R28: at most one result. -/
theorem AnswersNoFault.results {s t : State} (h : AnswersNoFault s t) :
    t.results = s.results ∨ ∃ r, t.results = s.results ++ [r] :=
  h.imp_right fun ⟨r, hr, _⟩ => ⟨r, hr⟩

/-- R26: an operation that answers no fault answers pe = 0. -/
theorem AnswersNoFault.pe_false {s t : State} {r : Result} (h : AnswersNoFault s t)
    (hr : t.results = s.results ++ [r]) : r.pe = false := by
  obtain hsame | ⟨q, hq, -, hpe⟩ := h
  · simp [hsame] at hr
  · obtain rfl : q = r := by simpa [hq] using hr
    exact hpe

/-- R24, R27: what no operation writes, and what it only adds to. -/
def OperationFrame (s t : State) : Prop :=
  t.params = s.params ∧ t.transportOpen = s.transportOpen ∧ t.hostIn = s.hostIn ∧
    (t.results = s.results ∨ ∃ r, t.results = s.results ++ [r]) ∧
    s.txlog <+: t.txlog ∧ s.attempts <+: t.attempts ∧ s.draws ≤ t.draws

theorem OperationFrame.deliver (r : Result) (s : State) : OperationFrame s (s.deliver r) :=
  ⟨rfl, rfl, rfl, .inr ⟨r, rfl⟩, List.prefix_rfl, List.prefix_rfl, Nat.le_refl _⟩

/-- R160: RESET and waiting are within the frame too. -/
theorem OperationFrame.setRxbuf (v : List Byte) (s : State) : OperationFrame s (s.setRxbuf v) :=
  ⟨rfl, rfl, rfl, .inl rfl, List.prefix_rfl, List.prefix_rfl, Nat.le_refl _⟩

theorem OperationFrame.send (m : List Byte) (s : State) :
    OperationFrame s ((s.sendAll m).ret .ok [] false) := by
  rw [sendAll_eq]
  exact ⟨rfl, rfl, rfl, .inr ⟨_, rfl⟩, List.prefix_append _ _, List.prefix_rfl, Nat.le_add_right _ _⟩

theorem OperationFrame.serve (as : List Answer) (s : State) : OperationFrame s (State.serve as s) := by
  obtain ⟨htx, hhost, hdraws, hparams, hopen⟩ := serve_frame as s
  exact ⟨hparams, hopen, hhost, AnswersNoFault.results (serve_results as s), htx ▸ List.prefix_rfl,
    serve_attempts as s, hdraws.ge⟩

theorem Opening.operationFrame {i : Instr} {g : State → State} (hg : Opening i g) (s : State) :
    OperationFrame s (g s).serveAll := by
  cases hg with
  | recv c => exact OperationFrame.serve s.pktIn { s.await (.recv (Receive.start c)) with pktIn := [] }
  | read n =>
    obtain ⟨htx, hhost, hdraws, hparams, hopen, hatt, -⟩ := readStart_frame n s
    obtain ⟨sparams, sopen, shost, -, stx, satt, sdraws⟩ :=
      OperationFrame.serve (s.readStart n).pktIn { s.readStart n with pktIn := [] }
    exact ⟨sparams.trans hparams, sopen.trans hopen, shost.trans hhost,
      AnswersNoFault.results (readAll_results n s), htx ▸ stx, hatt ▸ satt, hdraws ▸ sdraws⟩

theorem exec_operationFrame {i : Instr} {s t : State} (h : exec i s = .next t) : OperationFrame s t := by
  obtain ⟨f, -, rfl⟩ | ⟨m, -, -, rfl⟩ | ⟨g, hg, -, rfl⟩ := exec_next_kinds h
  · exact .deliver _ s
  · exact .send m s
  · exact hg.operationFrame s

/-- R46: a step is an operation's, once the input it takes has been taken; RESET and waiting write no
more than an operation. -/
theorem step_operationFrame {s t : State} (h : step s = .next t) :
    OperationFrame s t ∨ ∃ x rest, s.hostIn = x :: rest ∧ OperationFrame { s with hostIn := rest } t := by
  obtain ⟨p, ho, -⟩ | ⟨-, ⟨-, rfl⟩ | ⟨rest, hh, rfl⟩ | ⟨c, rest, hh, ⟨-, rfl⟩ | ⟨i, -, he⟩⟩⟩ :=
    step_cases h
  · obtain ⟨-, rfl⟩ := step_waiting_next ho h
    exact .inl (OperationFrame.serve _ { s with pktIn := [] })
  · exact .inl (.setRxbuf _ _)
  · exact .inr ⟨_, rest, hh, .setRxbuf [] _⟩
  · exact .inr ⟨_, rest, hh, .deliver _ _⟩
  · exact .inr ⟨_, rest, hh, exec_operationFrame he⟩

/-! ### TXLOG and RXBUF -/

theorem serveAll_txlog (s : State) (l : List Packet) :
    State.serveAll { s with txlog := l } = { s.serveAll with txlog := l } :=
  serve_txlog s.pktIn { s with pktIn := [] } l

/-- R27: run on `s`, which gives `t`, the machine appends the packets `new` to TXLOG; on any other TXLOG it
does the same and appends the same. -/
def AppendsToTxlog (run : State → Host.Outcome State Fault Refusal) (s t : State) (new : List Packet) :
    Prop :=
  t.txlog = s.txlog ++ new ∧ ∀ l, run { s with txlog := l } = .next { t with txlog := l ++ new }

theorem AppendsToTxlog.nil {run : State → Host.Outcome State Fault Refusal} {s t : State}
    (htx : t.txlog = s.txlog) (hrun : ∀ l, run { s with txlog := l } = .next { t with txlog := l }) :
    AppendsToTxlog run s t [] :=
  ⟨by rw [htx, List.append_nil], fun l => by rw [hrun, List.append_nil]⟩

theorem exec_txlog {i : Instr} {s t : State} (h : exec i s = .next t) :
    ∃ new, (new = [] ∨ ∃ m, i = .send m) ∧ AppendsToTxlog (exec i) s t new := by
  obtain ⟨f, hf, rfl⟩ | ⟨m, rfl, hopen, rfl⟩ | ⟨g, hg, hopen, rfl⟩ := exec_next_kinds h
  · exact ⟨[], .inl rfl, .nil rfl fun l => hf _⟩
  · refine ⟨sentPackets m s.draws (packetCount m), .inr ⟨m, rfl⟩, ?_, fun l => ?_⟩
    · rw [sendAll_eq]; rfl
    · rw [exec_send, onTransport_open (by exact hopen), sendAll_eq, sendAll_eq]
      rfl
  · obtain ⟨hstart, -, -⟩ := hg.frame s
    obtain ⟨hserve, -⟩ := serve_frame (g s).pktIn { g s with pktIn := [] }
    refine ⟨[], .inl rfl, .nil (hserve.trans hstart) fun l => ?_⟩
    rw [hg.exec_eq, onTransport_open (by exact hopen), hg.setTxlog, serveAll_txlog]

/-- R27: a step appends to TXLOG only for a SEND that it takes. -/
theorem step_txlog {s t : State} (h : step s = .next t) :
    ∃ new, (new = [] ∨
        s.op = none ∧ ∃ c rest m, s.hostIn = .command c :: rest ∧ decode c = .ok (.send m)) ∧
      AppendsToTxlog step s t new := by
  obtain ⟨p, ho, -⟩ | ⟨ho, ⟨hh, rfl⟩ | ⟨rest, hh, rfl⟩ | ⟨c, rest, hh, ⟨hd, rfl⟩ | ⟨i, hd, he⟩⟩⟩ :=
    step_cases h
  · obtain ⟨hopen, rfl⟩ := step_waiting_next ho h
    obtain ⟨htx, -⟩ := serve_frame (s.answers p) { s with pktIn := [] }
    refine ⟨[], .inl rfl, .nil htx fun l => ?_⟩
    rw [step_waiting (s := { s with txlog := l }) ho hopen]
    exact congrArg _ (serve_txlog _ { s with pktIn := [] } l)
  · exact ⟨[], .inl rfl, .nil rfl fun l => step_idle ho hh⟩
  · exact ⟨[], .inl rfl, .nil rfl fun l => step_reset ho hh⟩
  · exact ⟨[], .inl rfl, .nil rfl fun l => step_badOpcode ho hh hd⟩
  · obtain ⟨new, hsend, htx, hrun⟩ := exec_txlog he
    refine ⟨new, hsend.imp_right ?_, htx, fun l => ?_⟩
    · rintro ⟨m, rfl⟩
      exact ⟨ho, c, rest, m, hh, hd⟩
    · rw [step_decoded (s := { s with txlog := l }) ho hh hd]
      exact hrun l

/-- R25, R117: an instruction other than READ neither writes RXBUF nor reads it. -/
theorem exec_rxbuf {i : Instr} {s t : State} (hi : ∀ n d, i ≠ .read n d) (h : exec i s = .next t)
    (v : List Byte) : t.rxbuf = s.rxbuf ∧ exec i { s with rxbuf := v } = .next { t with rxbuf := v } := by
  obtain ⟨f, hf, rfl⟩ | ⟨m, rfl, hopen, rfl⟩ | ⟨g, hg, hopen, rfl⟩ := exec_next_kinds h
  · exact ⟨rfl, hf _⟩
  · rw [exec_send, onTransport_open (by exact hopen), sendAll_eq, sendAll_eq]
    exact ⟨rfl, rfl⟩
  · cases hg with
    | read n => exact absurd rfl (hi n [])
    | recv c =>
      obtain ⟨hkeep, hread⟩ := serve_recv_rxbuf s.pktIn { s.await (.recv (Receive.start c)) with pktIn := [] }
        v (.inr ⟨_, rfl⟩)
      refine ⟨hkeep, ?_⟩
      rw [exec_recv, onTransport_open (by exact hopen)]
      exact congrArg _ hread

/-! ### Padding -/

theorem accept_pktIn_nil {s : State} (hs : s.pktIn = []) (p : Pending) (a : Answer) :
    (s.accept p a).pktIn = [] := by
  obtain ⟨-, -, hpkt, -⟩ := accept_frame p a s
  exact hpkt.trans hs

/-- R115, R117(a): a receive looks at the header and the payload of a packet only. -/
theorem absorb_sameButPadding {a b : Answer} (h : SameButPadding a b) (r : Receive) :
    r.absorb a = r.absorb b := by
  match a, b, h with
  | .timeout, .timeout, _ => rfl
  | .packet p, .packet q, ⟨hheader, hpayload⟩ =>
    have heos : p.eos = q.eos := congrArg hdrEos hheader
    rw [Receive.absorb, Receive.absorb, heos, hpayload]

theorem sameButPadding_refl (a : Answer) : SameButPadding a a := by
  cases a with
  | timeout => exact trivial
  | packet p => exact ⟨rfl, rfl⟩

/-- R115, R117(a): on answers that agree but for padding an operation does the same. -/
theorem serve_padding {as bs : List Answer} (h : List.Forall₂ SameButPadding as bs) {s : State}
    (hs : s.pktIn = []) :
    ∃ cs, List.Forall₂ SameButPadding (State.serve as s).pktIn cs ∧
      State.serve bs s = { State.serve as s with pktIn := cs } := by
  induction h generalizing s with
  | nil => exact ⟨[], by rw [State.serve, hs]; exact .nil, (State.pktIn_eta hs).symm⟩
  | @cons a b as bs hab has ih =>
    rcases Option.eq_none_or_eq_some s.op with ho | ⟨p, ho⟩
    · rw [serve_idle ho hs, serve_idle ho hs]
      exact ⟨b :: bs, .cons hab has, rfl⟩
    · have hacc : s.accept p b = s.accept p a := by
        simp only [State.accept, absorb_sameButPadding hab]
      rw [serve_cons ho, serve_cons ho, hacc]
      exact ih (accept_pktIn_nil hs p a)

/-- R165: the answers that a waiting operation runs on, with the listed packets' padding changed. -/
theorem answers_padding {s : State} {as : List Answer} (h : List.Forall₂ SameButPadding s.pktIn as)
    (p : Pending) :
    List.Forall₂ SameButPadding (s.answers p) (State.answers p { s with pktIn := as }) := by
  unfold State.answers
  by_cases hs : s.pktIn = []
  · obtain rfl : as = [] := List.forall₂_nil_left_iff.1 (hs ▸ h)
    rw [if_pos hs, if_pos rfl]
    exact .cons (sameButPadding_refl _) .nil
  · have has : as ≠ [] := fun has => hs (List.forall₂_nil_right_iff.1 (has ▸ h))
    rw [if_neg hs, if_neg has]
    exact h

theorem exec_padding {i : Instr} {s t : State} {as : List Answer}
    (h : List.Forall₂ SameButPadding s.pktIn as) (he : exec i s = .next t) :
    ∃ bs, List.Forall₂ SameButPadding t.pktIn bs ∧
      exec i { s with pktIn := as } = .next { t with pktIn := bs } := by
  obtain ⟨f, hf, rfl⟩ | ⟨m, rfl, hopen, rfl⟩ | ⟨g, hg, hopen, rfl⟩ := exec_next_kinds he
  · exact ⟨as, h, hf _⟩
  · rw [exec_send, onTransport_open (by exact hopen), sendAll_eq, sendAll_eq]
    exact ⟨as, h, rfl⟩
  · obtain ⟨bs, hbs, hserve⟩ := serve_padding h (hg.pktIn_nil s)
    rw [hg.exec_eq, onTransport_open (by exact hopen), hg.serveAll_eq, hg.serveAll_eq]
    exact ⟨bs, hbs, congrArg _ hserve⟩

/-- R115, R165: a step does the same whatever the padding of the packets listed. -/
theorem step_padding {s t : State} {as : List Answer} (h : List.Forall₂ SameButPadding s.pktIn as)
    (hs : step s = .next t) :
    ∃ bs, List.Forall₂ SameButPadding t.pktIn bs ∧
      step { s with pktIn := as } = .next { t with pktIn := bs } := by
  obtain ⟨p, ho, -⟩ | ⟨ho, ⟨hh, rfl⟩ | ⟨rest, hh, rfl⟩ | ⟨c, rest, hh, ⟨hd, rfl⟩ | ⟨i, hd, he⟩⟩⟩ :=
    step_cases hs
  · obtain ⟨hopen, rfl⟩ := step_waiting_next ho hs
    rw [step_waiting (s := { s with pktIn := as }) ho hopen]
    obtain ⟨bs, hbs, hserve⟩ := serve_padding (answers_padding h p) (s := { s with pktIn := [] }) rfl
    exact ⟨bs, hbs, congrArg _ hserve⟩
  · exact ⟨as, h, step_idle ho hh⟩
  · exact ⟨as, h, step_reset ho hh⟩
  · exact ⟨as, h, step_badOpcode ho hh hd⟩
  · obtain ⟨bs, hbs, hexec⟩ := exec_padding (s := { s with hostIn := rest }) h he
    refine ⟨bs, hbs, ?_⟩
    rw [step_decoded (s := { s with pktIn := as }) ho hh hd]
    exact hexec

/-! ### Operations that wait -/

/-- R46: an operation that still waits after the answers `as` goes on with the answers `bs` as if it had
been given both at once. -/
theorem step_serve {s : State} {p : Pending} {as bs : List Answer} (hs : s.pktIn = [])
    (hopen : s.transportOpen = true) (hop : (State.serve as s).op = some p) (hbs : bs ≠ []) :
    step { State.serve as s with pktIn := bs } = .next (State.serve (as ++ bs) s) := by
  have hwait : (State.serve as s).op ≠ none := by simp [hop]
  obtain ⟨-, -, -, -, hkeep⟩ := serve_frame as s
  rw [step_waiting_listed (s := { State.serve as s with pktIn := bs }) hop (hkeep.trans hopen) hbs,
    serve_append hwait]
  conv_rhs => rw [← State.pktIn_eta (serve_pktIn hs hwait)]
  rfl

/-- R46: of the instructions RECV and READ only can wait, and they run on the answers listed. -/
theorem exec_seamless {i : Instr} {s t : State} {p : Pending} {as bs : List Answer}
    (h : exec i { s with pktIn := as } = .next t) (hop : t.op = some p) (hbs : bs ≠ []) :
    step { t with pktIn := bs } = exec i { s with pktIn := as ++ bs } := by
  obtain ⟨f, hf, rfl⟩ | ⟨m, rfl, hopen, rfl⟩ | ⟨g, hg, hopen, rfl⟩ := exec_next_kinds h
  · cases hop
  · cases hop
  · rw [hg.serveAll_eq] at hop ⊢
    rw [hg.exec_eq, hg.serveAll_eq, onTransport_open (by exact hopen)]
    obtain ⟨-, -, hstart⟩ := hg.frame { s with pktIn := [] }
    exact step_serve (hg.pktIn_nil s) (hstart.trans hopen) hop hbs

/-- R116, R117: an operation that has just begun a receive, on packets without EOS. -/
theorem serve_await_packets {ps : List Packet} (hps : ∀ q ∈ ps, q.eos = false) {p : Pending}
    {tc : TimeoutClass} (hp : p.receive = Receive.start tc) (s : State) :
    State.serve (ps.map .packet) (s.await p) = (s.attemptsMade ps.length tc).await
      (p.withReceive { tc := tc, acc := payloads ps, first := ps.isEmpty }) := by
  have h := serve_packets hps p [] s
  rwa [List.append_nil, hp] at h

/-- R29, R116: RECV on packets without EOS. -/
theorem exec_recv_packets {s : State} (hs : s.Ready) {ps : List Packet} (hps : ∀ q ∈ ps, q.eos = false)
    (hpkt : s.pktIn = ps.map .packet) (c : TimeoutClass) :
    exec (.recv c []) s = .next { s with
      pktIn := []
      attempts := s.attempts ++ List.replicate ps.length c
      op := some (.recv { tc := c, acc := payloads ps, first := ps.isEmpty }) } := by
  rw [exec_recv, onTransport_open hs.2, (Opening.recv c).serveAll_eq, hpkt, serve_await_packets hps rfl]
  rfl

/-- R29, R121: READ 0 on packets without EOS. -/
theorem exec_read_zero_packets {s : State} (hs : s.Ready) {ps : List Packet} (hps : ∀ q ∈ ps, q.eos = false)
    (hpkt : s.pktIn = ps.map .packet) :
    exec (.read 0 []) s = .next { s with
      pktIn := []
      attempts := s.attempts ++ List.replicate ps.length .short
      op := some (.read 0 false { tc := .short, acc := payloads ps, first := ps.isEmpty }) } := by
  rw [exec_read, onTransport_open hs.2, (Opening.read 0).serveAll_eq, hpkt, State.readStart, if_pos rfl,
    serve_await_packets hps rfl]
  rfl

/-- R29, R122: READ n after the receives it goes on after, on packets without EOS. -/
theorem exec_read_packets {s : State} (hs : s.Ready) {n : Nat} (hn : 0 < n) {rs : List Received}
    (hrs : ReadGoesOn s n rs) {ps : List Packet} (hps : ∀ q ∈ ps, q.eos = false)
    (hpkt : s.pktIn = allAnswers rs ++ ps.map .packet) (hlen : (s.rxbuf ++ allBytes rs).length < n) :
    exec (.read n []) s = .next { s with
      rxbuf := s.rxbuf ++ allBytes rs
      pktIn := []
      attempts := s.attempts ++ List.replicate ((allAnswers rs).length + ps.length) .long
      op := some (.read n (anyIncomplete rs) { tc := .long, acc := payloads ps, first := ps.isEmpty }) } := by
  rw [exec_read_goesOn hs hn hrs hpkt, readLoop_fewer hlen, serve_await_packets hps rfl, State.gained,
    attemptsMade_attemptsMade]
  rfl

/-! ### A receive that ends -/

/-- R116: the answer ends every receive that it comes to. -/
def EndsReceive (a : Answer) : Prop := a = .timeout ∨ ∃ q, a = .packet q ∧ q.eos = true

/-- Up to the first answer that ends a receive there are packets without EOS. -/
theorem exists_first_end {as : List Answer} (h : ∃ a ∈ as, EndsReceive a) :
    ∃ (ps : List Packet) (a : Answer) (rest : List Answer), (∀ p ∈ ps, p.eos = false) ∧
      as = ps.map .packet ++ a :: rest ∧ EndsReceive a := by
  induction as with
  | nil => obtain ⟨a, ha, -⟩ := h; cases ha
  | cons a as ih =>
    by_cases ha : EndsReceive a
    · exact ⟨[], a, as, by simp, rfl, ha⟩
    · obtain ⟨ps, b, rest, hps, rfl, hb⟩ := ih (by simpa [ha] using h)
      simp only [EndsReceive, not_or, not_exists, not_and, Bool.not_eq_true] at ha
      cases a with
      | timeout => exact absurd rfl ha.1
      | packet q => exact ⟨q :: ps, b, rest, by simpa using ⟨ha.2 q rfl, hps⟩, rfl, hb⟩

/-- R116, R117, R118: answers of which one ends a receive begin with those of a receive that ends. -/
theorem exists_receiveEnds {as : List Answer} (h : ∃ a ∈ as, EndsReceive a) :
    ∃ bs rest rc m, ReceiveEnds bs rc m ∧ as = bs ++ rest := by
  obtain ⟨ps, a, rest, hps, rfl, rfl | ⟨q, rfl, hq⟩⟩ := exists_first_end h
  · by_cases hne : ps = []
    · subst hne
      exact ⟨_, rest, _, _, receiveEnds_timeout, rfl⟩
    · exact ⟨ps.map .packet ++ [.timeout], rest, _, _, ⟨ps, hps, .inr (.inr ⟨rfl, hne, rfl, rfl⟩)⟩, by simp⟩
  · exact ⟨ps.map .packet ++ [.packet q], rest, _, _, ⟨ps, hps, .inl ⟨rfl, q, hq, rfl, rfl⟩⟩, by simp⟩

/-! ### The invariant -/

/-- R140: a result that is no fault, with pe = 0. -/
theorem answer_legal {c : Code} {d : List Byte} (hc : c.isFault = false) (hd : c = .nothing → d = []) :
    Result.Legal { code := c, data := d, pe := false, info := 0 } where
  fault h := by rw [hc] at h; cases h
  info h := absurd rfl h
  pe h := by cases h
  nothing := hd

/-- R124: READ's code is never NOTHING. -/
theorem readCode_legal (inc : Bool) (d : List Byte) :
    Result.Legal { code := readCode inc, data := d, pe := false, info := 0 } :=
  answer_legal (readCode_not_fault inc) fun h => by cases inc <;> cases h

theorem code_eq_nothing {rc : ReceiveCode} : rc.code = .nothing ↔ rc = .nothing := by
  cases rc <;> decide

theorem receiveCode_legal {rc : ReceiveCode} {m : List Byte} (h : rc = .nothing → m = []) :
    Result.Legal { code := rc.code, data := m, pe := false, info := 0 } :=
  answer_legal (receiveCode_not_fault rc) fun hc => h (code_eq_nothing.1 hc)

/-- R51: whole messages, and one more. -/
theorem wholeMessages_append {log ps : List Packet} {m : List Byte} (h : WholeMessages log)
    (hps : Carries ps m) : WholeMessages (log ++ ps) := by
  obtain ⟨ms, rfl, hms⟩ := h
  refine ⟨ms ++ [(ps, m)], by simp, fun x hx => ?_⟩
  rcases List.mem_append.1 hx with hx | hx
  · exact hms x hx
  · obtain rfl := List.mem_singleton.1 hx
    exact hps

/-- R51, R140: what the invariant says of the ports, whatever operation is in progress. -/
def State.PortsLegal (s : State) : Prop := (∀ r ∈ s.results, r.Legal) ∧ WholeMessages s.txlog

theorem State.Inv.ports {s : State} (h : s.Inv) : s.PortsLegal := ⟨h.results, h.txlog⟩

/-- Between operations the invariant speaks of the ports only. -/
theorem inv_of_idle {s : State} (h : s.PortsLegal) (ho : s.op = none) : s.Inv where
  pending p hp := by rw [ho] at hp; cases hp
  waits hne := absurd ho hne
  results := h.1
  txlog := h.2

theorem inv_deliver {s : State} {r : Result} (h : s.PortsLegal) (hr : r.Legal) : (s.deliver r).Inv := by
  refine inv_of_idle ⟨fun q hq => ?_, h.2⟩ rfl
  rcases List.mem_append.1 hq with hq | hq
  · exact h.1 q hq
  · obtain rfl := List.mem_singleton.1 hq
    exact hr

theorem inv_await {s : State} {p : Pending} (h : s.PortsLegal) (hpkt : s.pktIn = []) (hp : p.Legal s.rxbuf) :
    (s.await p).Inv where
  pending q hq := by cases hq; exact hp
  waits _ := hpkt
  results := h.1
  txlog := h.2

/-- R120: the head of READ's loop answers, or begins a receive that is legal. -/
theorem inv_readLoop {s : State} {n : Nat} (hn : n ≠ 0) (h : s.PortsLegal) (hpkt : s.pktIn = [])
    (inc : Bool) : (s.readLoop n inc).Inv := by
  rcases Nat.lt_or_ge s.rxbuf.length n with hlen | hlen
  · rw [readLoop_fewer hlen]
    exact inv_await h hpkt ⟨fun _ => rfl, fun h0 => absurd h0 hn, fun _ => ⟨rfl, hlen⟩⟩
  · rw [readLoop_enough hlen]
    exact inv_deliver h (readCode_legal inc _)

theorem inv_receiveEnded {s : State} {rc : ReceiveCode} {m : List Byte} (h : s.PortsLegal)
    (hpkt : s.pktIn = []) (hm : rc = .nothing → m = []) (p : Pending) : (s.receiveEnded p rc m).Inv := by
  cases p with
  | recv r => exact inv_deliver h (receiveCode_legal hm)
  | read n inc r =>
    rw [State.receiveEnded, State.readReceived]
    split_ifs with h0
    · exact inv_deliver h (readCode_legal _ _)
    · exact inv_deliver h (answer_legal short_not_fault fun hc => by cases hc)
    · exact inv_readLoop (s := s.setRxbuf (s.rxbuf ++ m)) h0 h hpkt _

/-- R29, R116: a receive that goes on keeps its class, and is past its first packet. -/
theorem absorb_more {r r' : Receive} {a : Answer} (h : r.absorb a = .more r') :
    r'.tc = r.tc ∧ r'.first = false := by
  cases a with
  | timeout => cases hf : r.first <;> simp [Receive.absorb, hf] at h
  | packet p =>
    cases he : p.eos
    · rw [absorb_noEos he] at h; cases h; exact ⟨rfl, rfl⟩
    · rw [absorb_eos he] at h; cases h

/-- R118: a receive that ends with NOTHING has no bytes. -/
theorem absorb_nothing {r : Receive} {a : Answer} {m : List Byte} (h : r.absorb a = .ended .nothing m) :
    m = [] := by
  cases a with
  | timeout => cases hf : r.first <;> simp_all [Receive.absorb]
  | packet p =>
    cases he : p.eos
    · rw [absorb_noEos he] at h; cases h
    · rw [absorb_eos he] at h; cases h

/-- R29: an operation in progress stays legal while its receive goes on. -/
theorem Pending.Legal.withReceive {buf : List Byte} {p : Pending} (h : p.Legal buf) {r : Receive}
    (htc : r.tc = p.receive.tc) (hfirst : r.first = false) : (p.withReceive r).Legal buf := by
  have hacc : r.first = true → r.acc = [] := fun ht => by rw [hfirst] at ht; cases ht
  cases p with
  | recv r₀ => exact hacc
  | read n inc r₀ =>
    obtain ⟨-, hzero, hpos⟩ := h
    exact ⟨hacc, fun hn => htc.trans (hzero hn), fun hn => (hpos hn).imp_left htc.trans⟩

theorem inv_accept {s : State} {p : Pending} (h : s.Inv) (ho : s.op = some p) (hpkt : s.pktIn = [])
    (a : Answer) : (s.accept p a).Inv := by
  unfold State.accept
  split
  · next r hr =>
    obtain ⟨htc, hfirst⟩ := absorb_more hr
    exact inv_await h.ports hpkt ((h.pending p ho).withReceive htc hfirst)
  · next rc m hr =>
    have hm : rc = .nothing → m = [] := by rintro rfl; exact absorb_nothing hr
    exact inv_receiveEnded (s := s.attempt p.receive.tc) h.ports hpkt hm p

/-- R46: the transport's answers keep the invariant. -/
theorem inv_serve {s : State} (h : s.Inv) (hpkt : s.pktIn = []) (as : List Answer) :
    (State.serve as s).Inv := by
  induction as generalizing s with
  | nil => exact h
  | cons a as ih =>
    rcases Option.eq_none_or_eq_some s.op with ho | ⟨p, ho⟩
    · rw [serve_idle ho hpkt]
      exact inv_of_idle h.ports ho
    · rw [serve_cons ho]
      exact ih (inv_accept h ho hpkt a) (accept_pktIn_nil hpkt p a)

theorem Opening.inv {i : Instr} {g : State → State} (hg : Opening i g) {s : State} (h : s.PortsLegal)
    (hpkt : s.pktIn = []) : (g s).Inv := by
  cases hg with
  | recv c => exact inv_await h hpkt fun _ => rfl
  | read n =>
    unfold State.readStart
    split_ifs with hn
    · exact inv_await h hpkt ⟨fun _ => rfl, fun _ => rfl, fun hpos => absurd hpos (by decide)⟩
    · exact inv_readLoop hn h hpkt false

theorem Opening.inv_serveAll {i : Instr} {g : State → State} (hg : Opening i g) {s : State}
    (h : s.PortsLegal) : (g s).serveAll.Inv := by
  rw [hg.serveAll_eq]
  exact inv_serve (hg.inv (s := { s with pktIn := [] }) h rfl) (hg.pktIn_nil s) _

theorem exec_inv {i : Instr} {s t : State} (h : s.PortsLegal) (he : exec i s = .next t) : t.Inv := by
  obtain ⟨r, hr⟩ | ⟨m, -, -, rfl⟩ | ⟨c, -, -, rfl⟩ | ⟨n, -, -, rfl⟩ := exec_cases he
  · rw [hr.state]
    exact inv_deliver h hr.legal
  · rw [sendAll_eq]
    exact inv_deliver ⟨h.1, wholeMessages_append h.2 (sentPackets_carries m s.draws)⟩ (ok_legal [] false)
  · exact (Opening.recv c).inv_serveAll h
  · exact (Opening.read n).inv_serveAll h

theorem step_inv {s t : State} (h : s.Inv) (hs : step s = .next t) : t.Inv := by
  obtain ⟨p, ho, -⟩ | ⟨ho, ⟨-, rfl⟩ | ⟨rest, -, rfl⟩ | ⟨c, rest, -, ⟨-, rfl⟩ | ⟨i, -, he⟩⟩⟩ :=
    step_cases hs
  · obtain ⟨-, rfl⟩ := step_waiting_next ho hs
    exact inv_serve (s := { s with pktIn := [] }) ⟨h.pending, fun _ => rfl, h.results, h.txlog⟩ rfl _
  · exact h
  · exact inv_of_idle h.ports ho
  · exact inv_deliver h.ports (fault_legal .badOpcode 0 fun h0 => absurd rfl h0)
  · exact exec_inv (s := { s with hostIn := rest }) h.ports he

/-- R32: nothing has been answered or sent. -/
theorem reset_portsLegal : State.reset.PortsLegal :=
  ⟨fun _ hr => (nomatch hr), [], rfl, fun _ hx => (nomatch hx)⟩

end Sys2Proof.Machine

namespace Sys2Proof
open Machine

/-- Settles O2: the decoder inverts the encoder, and its answer carries the command's own fields. -/
theorem decodeInvertsEncode : Obligations.DecodeInvertsEncode :=
  ⟨decode_encode, fun _ _ => encode_of_decode_ok, fun _ _ _ => count_of_decode_read⟩

/-- Settles O14: of a waiting operation each answer keeps the invariant; an instruction keeps the part of it
that speaks of the ports, and the operation it begins is legal. -/
theorem stepKeepsInvariant : Obligations.StepKeepsInvariant :=
  fun _ _ => step_inv

/-- Settles O8: a waiting operation runs on the transport's answers, whatever the host presents. -/
theorem hostWaitsForOperation : Obligations.HostWaitsForOperation := by
  intro s t p ho h
  obtain ⟨hopen, rfl⟩ := step_waiting_next ho h
  obtain ⟨-, hkeep, -⟩ := serve_frame (s.answers p) { s with pktIn := [] }
  refine ⟨hkeep, fun inputs => ?_⟩
  rw [step_waiting (s := { s with hostIn := inputs }) ho hopen]
  exact congrArg _ (serve_hostIn _ { s with pktIn := [] } inputs)

/-- Settles O10: only RECV and READ wait, and their runs on the answers compose. -/
theorem waitingIsSeamless : Obligations.WaitingIsSeamless :=
  fun _ _ _ _ _ _ _ h hop hbs => exec_seamless h hop hbs

/-- Settles O15: a step takes at most one input, and runs at most one operation. -/
theorem stepFrame : Obligations.StepFrame := by
  intro s t h
  obtain ⟨hparams, hopen, hhost, hrest⟩ | ⟨x, rest, hh, hparams, hopen, hhost, hrest⟩ :=
    step_operationFrame h
  · exact ⟨hparams, hopen, .inl hhost, hrest⟩
  · exact ⟨hparams, hopen, .inr ⟨x, hh.trans (congrArg _ hhost.symm)⟩, hrest⟩

/-- Settles O17: RECV's receive leaves RXBUF alone, and no other instruction but READ has it. -/
theorem onlyReadUsesRxbuf : Obligations.OnlyReadUsesRxbuf :=
  fun _ _ _ v _ hi h => exec_rxbuf hi h v

/-- Settles O18: the packets a step appends are those of the SEND it takes. -/
theorem onlySendExtendsTxlog : Obligations.OnlySendExtendsTxlog := by
  intro s t h
  obtain ⟨new, hsend, htx, hrun⟩ := step_txlog h
  refine ⟨fun hne => hsend.resolve_left ?_, new, htx, hrun⟩
  rintro rfl
  exact hne (htx.trans (List.append_nil _))

/-- Settles O19: an instruction that only answers sets pe if it is an UNPACK; no other operation does. -/
theorem onlyUnpackSetsPe : Obligations.OnlyUnpackSetsPe := by
  refine ⟨fun i s t r _ h hr hpe => ?_,
    fun s t p r ho h hr => (step_waiting_answersNoFault ho h).pe_false hr⟩
  obtain ⟨q, hq⟩ | hno := exec_answersOnly_or_noFault h
  · obtain rfl : q = r := by simpa [hq.state] using hr
    exact ⟨hq.legal.pe hpe, hq.pe hpe⟩
  · rw [hno.pe_false hr] at hpe; cases hpe

/-- Settles O21: what asks whether the transport is open is what uses it. -/
theorem stepStopsOnClosedTransportOnly : Obligations.StepStopsOnClosedTransportOnly := by
  refine ⟨step_not_refused, fun s f => step_fault, fun s ht => ?_⟩
  obtain ⟨hsend, hreceive⟩ := exec_closed ht
  exact ⟨hsend, fun c => hreceive _ _ (.recv c), fun n => hreceive _ _ (.read n),
    fun p ho => step_waiting_closed ho ht⟩

/-- Settles O23: a receive does not see the padding, and what it leaves to the transport differs in
padding only. -/
theorem paddingIsNeverData : Obligations.PaddingIsNeverData :=
  fun _ _ _ h hs => step_padding h hs

/-- Settles O26: the group has the 1 bits of its data bits, and its parity bit. -/
theorem parityMakesGroupsOdd : Obligations.ParityMakesGroupsOdd := by
  intro D d
  refine ⟨oddpar_toNat D d, ?_, fun d' h => ?_⟩
  · rw [popcount_group, oddpar_toNat]
    rcases Nat.mod_two_eq_zero_or_one (popcount D d) with h | h
    · rw [h, Nat.xor_zero]; omega
    · rw [h, Nat.xor_self]; omega
  · rw [oddpar, oddpar, popcount_congr h]

/-- Settles O38: the packets are gathered, and the answers are used up. -/
theorem recvWaitsWithoutEos : Obligations.RecvWaitsWithoutEos :=
  fun _ c _ hs hps hpkt => exec_recv_packets hs hps hpkt c

/-- Settles O39: the answers begin with those of a receive that ends. -/
theorem recvEndsOnEosOrTimeout : Obligations.RecvEndsOnEosOrTimeout := by
  intro s c hs hend
  have hfirst : ∃ a ∈ s.pktIn, EndsReceive a := by
    rcases hend with ht | ⟨q, hq, heos⟩
    · exact ⟨_, ht, .inl rfl⟩
    · exact ⟨_, hq, .inr ⟨q, rfl, heos⟩⟩
  obtain ⟨as, rest, rc, m, hrc, hpkt⟩ := exists_receiveEnds hfirst
  exact ⟨_, _, exec_recv_receiveEnds hrc hs hpkt c, hs.1, rfl⟩

/-- Settles O43: after its receives READ n begins one more, which gathers the packets. -/
theorem readWaitsForMoreBytes : Obligations.ReadWaitsForMoreBytes :=
  fun _ _ _ _ hs hn hrs hps hpkt hlen => exec_read_packets hs hn hrs hps hpkt hlen

/-- Settles O48: the one receive of READ 0 gathers the packets. -/
theorem readZeroWaitsWithoutEos : Obligations.ReadZeroWaitsWithoutEos :=
  fun _ _ hs hps hpkt => exec_read_zero_packets hs hps hpkt

/-- Settles O1: each command's fields are read off its op word. -/
theorem specOpWordsDecode : Obligations.SpecOpWordsDecode :=
  ⟨rfl, rfl, rfl, rfl, rfl, rfl, rfl, rfl, rfl⟩

/-- Settles O4: only READ's arm of the decoder has the count. -/
theorem countReadByReadOnly : Obligations.CountReadByReadOnly :=
  fun _ n h => decode_setCount n h

/-- Settles O6: the step takes the command and runs what it decodes to. -/
theorem stepRunsDecodedInstruction : Obligations.StepRunsDecodedInstruction :=
  fun _ _ _ _ ho hh hd => step_decoded ho hh hd

/-- Settles O9: the block waits. -/
theorem idleBlockWaits : Obligations.IdleBlockWaits :=
  fun _ ho hh => step_idle ho hh

/-- Settles O11: a waiting operation runs on the same answers either way. -/
theorem oracleAnswersWaitingOperation : Obligations.OracleAnswersWaitingOperation := by
  intro s p ho hpkt
  rcases Bool.eq_false_or_eq_true s.transportOpen with ht | ht
  · rw [step_waiting ho ht, State.answers, if_pos hpkt]
    exact (step_waiting (s := { s with pktIn := [_] }) ho ht).symm
  · rw [step_waiting_closed ho ht]
    exact (step_waiting_closed (s := { s with pktIn := [_] }) ho ht).symm

/-- Settles O13: between operations, with nothing answered or sent. -/
theorem resetStateMeetsInvariant : Obligations.ResetStateMeetsInvariant :=
  inv_of_idle reset_portsLegal State.reset_op

/-- Settles O22: the four are neither SEND nor an operation that waits. -/
theorem codecHasNoSideEffects : Obligations.CodecHasNoSideEffects := by
  intro i s ho hi
  rcases instr_kinds i with ⟨f, hf⟩ | ⟨m, rfl⟩ | ⟨g, hg⟩
  · exact ⟨_, by rw [hf, State.deliver_idle ho]⟩
  · simp at hi
  · cases hg <;> simp at hi

/-- Settles O24: the table of the codes, and its nine cases. -/
theorem resultCodeBytes : Obligations.ResultCodeBytes := by
  refine ⟨rfl, rfl, fun c => ?_⟩
  cases c <;> decide

/-- Settles O27: the sixteen values, with one entry for both tracks. -/
theorem parityTableOfTracksTwoAndThree : Obligations.ParityTableOfTracksTwoAndThree := by
  refine ⟨by decide, fun P hP => ?_⟩
  obtain rfl : { low := 0x30#8, bits := 5 } = P := by
    simpa only [tdp_two, tdp_three, or_self, Option.some.injEq] using hP
  decide

end Sys2Proof
end
